-- ==== Sys2Proof/Word.lean ====
section
/-! DEFINITION. The word types of the spec's notation: u8, u16 and u32 (00_scope.md R8). -/

namespace Sys2Proof

/-- `u8`: a target register, a target register address, a result code. -/
abbrev Byte := BitVec 8

/-- `u16`: an OFF count (40_channel_programmer.md R82). -/
abbrev Count := BitVec 16

/-- `u32`: a command word, an operand word or a response value (10_state.md R21, R22). -/
abbrev Word := BitVec 32

end Sys2Proof
end

