-- ==== Sys2Proof/Machine/Params.lean ====
section
/-! DEFINITION. The fixed parameters of the block (00_scope.md R6) and the target's register names (10_state.md R31, 20_memory.md R44). -/

namespace Sys2Proof.Machine

/-- CHANNEL_COUNT (R6): 16 physical outputs. -/
def channelCount : Nat := 16

/-- PERIOD_TICKS (R6): a duty window lies in a 4096-tick period; the meaningful counts are those below it. -/
def periodTicks : Nat := 4096

/-- LED_BASE (R6): the target address of channel 0's window. -/
def ledBase : Byte := 0x06

/-- WINDOW_STRIDE (R6): the number of target registers in a channel window. -/
def windowStride : Nat := 4

/-- ON_COUNT (R6, 30_encoding.md R72): always 0 in this block. -/
def onCount : Count := 0

/-- MIRROR_PIVOT (R6): 180 as binary32 bits (41_angle_pipeline.md R102). -/
def mirrorPivot : Word := 0x43340000

/-- `S64 = fl64(2.276)`, MAP_SCALE as binary64 bits (40_channel_programmer.md R80). -/
def mapScaleBits : BitVec 64 := 0x4002353F7CED9168

/-- The 53-bit significand of `S64`.
Its exponent field is 0x400, so `S64 = mapScaleSig * 2^-51`. -/
def mapScaleSig : Nat := 2 ^ 52 + mapScaleBits.toNat % 2 ^ 52

/-- MAP_ZERO (R6): the count added after quantization (40_channel_programmer.md R82). -/
def mapZero : Int := 102

/-- The target's MODE1 register (R44). -/
def mode1 : Byte := 0x00

/-- The target's MODE2 register (R44). -/
def mode2 : Byte := 0x01

/-- The target's prescaler register (R44). -/
def prescaler : Byte := 0xFE

/-- MODE1 bit masks (10_state.md R31); the block reads and writes none of them, and only AUTOINC enters a rule. -/
def mode1AllCall : Byte := 0x01

/-- MODE1 SUB3 (R31). -/
def mode1Sub3 : Byte := 0x02

/-- MODE1 SUB2 (R31). -/
def mode1Sub2 : Byte := 0x04

/-- MODE1 SUB1 (R31). -/
def mode1Sub1 : Byte := 0x08

/-- MODE1 SLEEP (R31, 60_exceptions.md R136). -/
def mode1Sleep : Byte := 0x10

/-- MODE1 AUTOINC (R31), the precondition of 20_memory.md R45. -/
def mode1AutoInc : Byte := 0x20

/-- MODE1 EXTCLK (R31). -/
def mode1ExtClk : Byte := 0x40

/-- MODE1 RESTART (R31). -/
def mode1Restart : Byte := 0x80

/-- The byte the external lifecycle writes last to MODE1: what it read, with RESTART, AUTOINC and ALLCALL set (10_state.md R32). -/
def lifecycleMode1 (old : Byte) : Byte := old ||| mode1Restart ||| mode1AutoInc ||| mode1AllCall

end Sys2Proof.Machine
end

