-- ==== Sys2Proof/Machine/Numeric.lean ====
section
/-! DEFINITION. The numeric primitives of 00_scope.md R10: binary32 values, rounding to nearest even, binary32 addition and comparison, binary64 rounding, truncation.

A finite binary32 number is an integer multiple of 2^-149, so its value is held as that integer, and sums are exact before they are rounded.
PRESUMED (log 10): the IEEE 754 definitions are the standard's, which the spec takes from general knowledge (R10, G3). -/

namespace Sys2Proof.Machine

/-- The number of binary digits of `n`; 0 has none. -/
def bitLen (n : Nat) : Nat := if n = 0 then 0 else n.log2 + 1

/-- `n / 2^sh` rounded to the nearest integer, ties to the even one (roundTiesToEven, R10). -/
def roundQuot (n sh : Nat) : Nat :=
  let q := n / 2 ^ sh
  let r := n % 2 ^ sh
  if 2 * r < 2 ^ sh ∨ (2 * r = 2 ^ sh ∧ q % 2 = 0) then q else q + 1

/-- How many low digits of `n` a significand of `p` digits has no room for. -/
def excess (p n : Nat) : Nat := bitLen n - p

/-- `n` rounded to `p` significant binary digits, ties to even. -/
def roundSig (p n : Nat) : Nat := roundQuot n (excess p n) * 2 ^ excess p n

/-- The biased exponent field, bits 30:23 (30_encoding.md R61). -/
def exponent32 (w : Word) : Nat := w.toNat / 2 ^ 23 % 2 ^ 8

/-- The fraction field, bits 22:0 (R61). -/
def fraction32 (w : Word) : Nat := w.toNat % 2 ^ 23

/-- The sign, bit 31 (R61). -/
def sign32 (w : Word) : Bool := w.msb

/-- `isFinite` (R10): the exponent field is not 0xFF (R61). -/
def isFinite32 (w : Word) : Bool := exponent32 w != 0xFF

/-- A NaN: exponent field 0xFF and fraction not 0 (R61). -/
def isNaN32 (w : Word) : Bool := exponent32 w == 0xFF && fraction32 w != 0

/-- The magnitude of a binary32 encoding in units of 2^-149: subnormals have exponent field 0 and no hidden digit. -/
def magnitude32 (w : Word) : Nat :=
  if exponent32 w = 0 then fraction32 w
  else (2 ^ 23 + fraction32 w) * 2 ^ (exponent32 w - 1)

/-- `f32` (R10) as an integer count of 2^-149: exact for every finite encoding.
An infinity gets the magnitude just above every finite one, which is what the comparisons need. -/
def value32 (w : Word) : Int :=
  if sign32 w then -(magnitude32 w : Int) else magnitude32 w

/-- IEEE `x < y` (R10): -0 equals +0, and a comparison with NaN is false. -/
def lt32 (x y : Word) : Bool :=
  !isNaN32 x && !isNaN32 y && decide (value32 x < value32 y)

/-- IEEE `x ≤ y` (R10). -/
def le32 (x y : Word) : Bool :=
  !isNaN32 x && !isNaN32 y && decide (value32 x ≤ value32 y)

/-- The low 31 bits of the binary32 nearest to `n * 2^-149`: the rounded significand added to its exponent, so that a
carry out of the significand raises the exponent; past the largest finite encoding, infinity (R10, overflow). -/
def encode32 (n : Nat) : Nat :=
  min (excess 24 n * 2 ^ 23 + roundQuot n (excess 24 n)) 0x7F800000

/-- A binary32 word from its sign and its low 31 bits. -/
def pack32 (neg : Bool) (bits : Nat) : Word :=
  BitVec.ofNat 32 ((if neg then 2 ^ 31 else 0) + bits)

/-- `bits32(fl32(v * 2^-149))` for a nonzero `v` (R10). -/
def round32 (v : Int) : Word := pack32 (decide (v < 0)) (encode32 v.natAbs)

/-- `-x`: the sign bit inverted. -/
def negate32 (x : Word) : Word := pack32 (!sign32 x) (x.toNat % 2 ^ 31)

/-- `fl32(x + y)` for finite `x` and `y` (41_angle_pipeline.md R100): the exact sum is rounded once.
A zero sum is +0 unless both operands are -0.
No command adds a non-finite operand (log 21). -/
def add32 (x y : Word) : Word :=
  let v := value32 x + value32 y
  if v = 0 then pack32 (sign32 x && sign32 y) 0 else round32 v

/-- `fl32(x - y)` for finite `x` and `y` (R100): IEEE subtraction is addition of the negated operand (log 10). -/
def sub32 (x y : Word) : Word := add32 x (negate32 y)

/-- `fl64` (R10) on a value held in any fixed unit: 53 significant digits, ties to even.
DEDUCED (log 11): no value of the map leaves binary64's normal range, so its exponent limits play no part. -/
def fl64 (v : Int) : Int :=
  if v < 0 then -(roundSig 53 v.natAbs : Int) else roundSig 53 v.natAbs

/-- `fl32` of the non-negative rational `num / den` as low 31 bits (30_encoding.md R68, decimal literals).
Two spare digits and a sticky digit below 2^-149 decide ties. -/
def encodeRatio32 (num den : Nat) : Nat :=
  let m := num * 2 ^ 150 / den
  let sticky := if num * 2 ^ 150 % den = 0 then 0 else 1
  let n := 2 * m + sticky
  let sh := max (excess 24 n) 2
  min ((sh - 2) * 2 ^ 23 + roundQuot n sh) 0x7F800000

end Sys2Proof.Machine
end

