-- ==== Sys2Proof/Config.lean ====
section
/-! DEFINITION. The configuration of the block (00_scope.md R7, 10_state.md R26, R27) and the values the spec leaves open.

An `opaque` constant has no body that a proof could use: a statement about it holds whatever its value is. -/

namespace Sys2Proof

/-- The four clamp limits as binary32 bits (00_scope.md R7). -/
structure Limits where
  minT : Word := 0
  maxT : Word := 0
  minS : Word := 0
  maxS : Word := 0
  deriving DecidableEq, Repr

/-- 10_state.md R27: the limits are finite, and min ≤ max in each class. -/
def Limits.wellFormed (l : Limits) : Bool :=
  Machine.isFinite32 l.minT && Machine.isFinite32 l.maxT &&
  Machine.isFinite32 l.minS && Machine.isFinite32 l.maxS &&
  Machine.le32 l.minT l.maxT && Machine.le32 l.minS l.maxS

/-- A configuration (R26).
An ill-formed one is refused at construction, as R27 and U10 ask: there is no term of this type for it. -/
structure Configuration where
  limits : Limits := {}
  /-- DEVICE_ADDRESS (R7), never interpreted by the block (log 15). -/
  deviceAddress : Nat := 0
  /-- BUS_TIMEOUT (R7), never interpreted by the block (log 15). -/
  busTimeout : Nat := 0
  wellFormed : limits.wellFormed = true := by decide
  deriving DecidableEq, Repr, Inhabited

/-- The configuration the block was built with, in the state after reset.
DESIGN CHOICE (log 2): the spec gives no value (D13, D14), so it stays open. -/
opaque Config.atReset : Configuration

/-- What target register `a` holds at power-on.
Free value (log 3): R142 and U9 leave it unconstrained. -/
opaque Config.tregPowerOn : Nat → Byte

/-- The `n`-th byte that a rule leaves unconstrained (R46, R47, R141, R145).
Free value (log 4). -/
opaque Config.freeByte : Nat → Byte

end Sys2Proof
end

