-- ==== Sys2Proof/Syntax.lean ====
section
/-! DEFINITION. The command record (10_state.md R21) and the eight commands (30_encoding.md R64), one constructor per row of the opcode table. -/

namespace Sys2Proof

/-- The command record of R21, delivered as one indivisible transfer. -/
structure Command where
  /-- `WORD`, the command word (R60). -/
  word : Word
  /-- `A`, the angle operand. -/
  a : Word := 0
  /-- `D`, the delta operand. -/
  d : Word := 0
  /-- `ANG[0..15]`, the per-channel angles of SETALL. -/
  ang : Vector Word 16 := Vector.replicate 16 0
  deriving DecidableEq, Repr

/-- The joint class, bit CLS of COND (30_encoding.md R63). -/
inductive JointClass where
  | thigh
  | shank
  deriving DecidableEq, Repr

/-- A decoded command with the operand fields it uses (R61).
Every term is well formed: each field has exactly the width of its field in R60 or R61. -/
inductive Instr where
  /-- SETCH, 40_channel_programmer.md R84. -/
  | setch (ch : Byte) (a : Word)
  /-- SETALL, R85. -/
  | setall (ang : Vector Word 16)
  /-- MIRROR, 41_angle_pipeline.md R102. -/
  | mirror (a : Word)
  /-- OFFSET, R103. -/
  | offset (a d : Word)
  /-- CLAMPT, R104. -/
  | clampt (a : Word)
  /-- CLAMPS, R105. -/
  | clamps (a : Word)
  /-- COND, R106. -/
  | cond (mir : Bool) (cls : JointClass) (a d : Word)
  /-- A2OFF, 40_channel_programmer.md R86. -/
  | a2off (a : Word)
  deriving DecidableEq, Repr

end Sys2Proof
end

