-- ==== Sys2Proof/WellFormed.lean ====
section
/-! DEFINITION. Which command words are well formed: the opcode map of 30_encoding.md R64 as a list of rows, and the test of R65.

The spec's other well-formedness check, of the configuration (10_state.md R27), is `Limits.wellFormed` in Config.lean.
A decoded `Instr` needs none: its fields have exactly the widths of R60 and R61. -/

namespace Sys2Proof

/-- A row of the opcode map (R64): `pattern` is its match column. -/
structure OpcodeRow where
  mnemonic : String
  pattern : Word
  mask : Word
  deriving DecidableEq, Repr

/-- The opcode map of R64. -/
def opcodeMap : List OpcodeRow :=
  [ ⟨"SETCH",  0x00000001, 0xFFFF00FF⟩,
    ⟨"SETALL", 0x00000002, 0xFFFFFFFF⟩,
    ⟨"MIRROR", 0x00000010, 0xFFFFFFFF⟩,
    ⟨"OFFSET", 0x00000011, 0xFFFFFFFF⟩,
    ⟨"CLAMPT", 0x00000012, 0xFFFFFFFF⟩,
    ⟨"CLAMPS", 0x00000013, 0xFFFFFFFF⟩,
    ⟨"COND",   0x00000014, 0xFFFCFFFF⟩,
    ⟨"A2OFF",  0x00000015, 0xFFFFFFFF⟩ ]

/-- `(w AND mask) = match` (R65). -/
def OpcodeRow.selects (r : OpcodeRow) (w : Word) : Bool := w &&& r.mask == r.pattern

/-- A word is well formed when some row selects it; any other word is illegal (R65, R66). -/
def wordWellFormed (w : Word) : Bool := opcodeMap.any (·.selects w)

/-- The mnemonic of the row that R65 selects, if any. -/
def rowOf (w : Word) : Option String := (opcodeMap.find? (·.selects w)).map (·.mnemonic)

/-- The mnemonic of the row a decoded command belongs to (R64). -/
def mnemonicOf : Instr → String
  | .setch _ _ => "SETCH"
  | .setall _ => "SETALL"
  | .mirror _ => "MIRROR"
  | .offset _ _ => "OFFSET"
  | .clampt _ => "CLAMPT"
  | .clamps _ => "CLAMPS"
  | .cond _ _ _ _ => "COND"
  | .a2off _ => "A2OFF"

end Sys2Proof
end

