-- ==== Sys2Proof/Decode.lean ====
section
/-! DEFINITION. Decoding a command record (30_encoding.md R60 to R66), total on every word, and the encoder (R60, R64, R68). -/

namespace Sys2Proof

/-- Why a command word is illegal (R66). -/
inductive Illegal where
  /-- The OP value is none of the eight of R64. -/
  | unassignedOp
  /-- The OP value is assigned, and a bit outside its row's mask is not zero. -/
  | bitOutsideMask
  deriving DecidableEq, Repr

/-- What decoding answers: an instruction, or the reason there is none. -/
inductive Decoded where
  | instr (i : Instr)
  | illegal (why : Illegal)
  deriving DecidableEq, Repr

/-- OP, bits 7:0 (R60). -/
def opField (w : Word) : Byte := w.extractLsb' 0 8

/-- CH, bits 15:8 (R60, R62). -/
def chField (w : Word) : Byte := w.extractLsb' 8 8

/-- MIR, bit 16 (R60, R63). -/
def mirField (w : Word) : Bool := w.getLsbD 16

/-- CLS, bit 17: 0 is thigh and 1 is shank (R60, R63). -/
def clsField (w : Word) : JointClass := if w.getLsbD 17 then .shank else .thigh

/-- The instruction `i` if the named high bits of the word are zero. -/
def whenZero (zero : Bool) (i : Instr) : Decoded :=
  if zero then .instr i else .illegal .bitOutsideMask

/-- Decode a command record (R65): the row by OP, every bit outside the row's fields required to be zero (R66), and the
operand fields the row uses (R61). -/
def decode (c : Command) : Decoded :=
  let w := c.word
  let above8 := w.extractLsb' 8 24 == 0
  if opField w = 0x01 then whenZero (w.extractLsb' 16 16 == 0) (.setch (chField w) c.a)
  else if opField w = 0x02 then whenZero above8 (.setall c.ang)
  else if opField w = 0x10 then whenZero above8 (.mirror c.a)
  else if opField w = 0x11 then whenZero above8 (.offset c.a c.d)
  else if opField w = 0x12 then whenZero above8 (.clampt c.a)
  else if opField w = 0x13 then whenZero above8 (.clamps c.a)
  else if opField w = 0x14 then
    whenZero (chField w == 0 && w.extractLsb' 18 14 == 0) (.cond (mirField w) (clsField w) c.a c.d)
  else if opField w = 0x15 then whenZero above8 (.a2off c.a)
  else .illegal .unassignedOp

/-- The command word of R60 with the given OP, CH, MIR and CLS fields and RSV zero. -/
def commandWord (op ch : Byte) (mir : Bool) (cls : JointClass) : Word :=
  0#14 ++ BitVec.ofBool (decide (cls = .shank)) ++ BitVec.ofBool mir ++ ch ++ op

/-- The command record of an instruction; operand fields it does not use are 0 (R68). -/
def encode : Instr → Command
  | .setch ch a => { word := commandWord 0x01 ch false .thigh, a := a }
  | .setall ang => { word := commandWord 0x02 0 false .thigh, ang := ang }
  | .mirror a => { word := commandWord 0x10 0 false .thigh, a := a }
  | .offset a d => { word := commandWord 0x11 0 false .thigh, a := a, d := d }
  | .clampt a => { word := commandWord 0x12 0 false .thigh, a := a }
  | .clamps a => { word := commandWord 0x13 0 false .thigh, a := a }
  | .cond mir cls a d => { word := commandWord 0x14 0 mir cls, a := a, d := d }
  | .a2off a => { word := commandWord 0x15 0 false .thigh, a := a }

/-- The command record whose word is the low `nbits` bits of `w` and whose operand fields are 0 (log 13). -/
def tableCommand (nbits w : Nat) : Command := { word := BitVec.ofNat 32 (w % 2 ^ nbits) }

/-- The instruction the decoder reads from a command word numbered as the opcode table numbers it. -/
def decodeTableWord (nbits w : Nat) : Option Instr :=
  match decode (tableCommand nbits w) with
  | .instr i => some i
  | .illegal _ => none

end Sys2Proof
end

