-- ==== Sys2Proof/Machine/State.lean ====
section
/-! DEFINITION. The state: the block's sequencer and response port (10_state.md R22, R23, R33), the configuration it was built with (R26),
the target's registers (R30), and the agents around the block as plain data (00_scope.md R5). -/

namespace Sys2Proof.Machine

/-- A frame (20_memory.md R45): the first byte is a register address, the rest are data. -/
abbrev Frame := List Byte

/-- The target's registers as (address, byte) pairs, addresses strictly rising.
A register not listed still holds its power-on byte, which nothing fixes (log 3). -/
abbrev Memory := List Host.Cell

/-- The canonical form: strictly rising addresses inside the 8-bit register space (20_memory.md R40). -/
abbrev Memory.wf (m : Memory) : Prop := m.Pairwise (fun x y => x.1 < y.1) ∧ ∀ c ∈ m, c.1 < 256

/-- The response record (10_state.md R22). -/
structure Response where
  /-- `RES`, a result code of 60_exceptions.md R120. -/
  res : Byte
  /-- `VAL`. -/
  val : Word
  deriving DecidableEq, Repr

/-- What `Transmit` hands to the transport (00_scope.md R9). -/
structure Transaction where
  deviceAddress : Nat
  busTimeout : Nat
  frame : Frame
  deriving DecidableEq, Repr

/-- The transport's answer (R9). -/
inductive Status where
  | success
  | failure
  deriving DecidableEq, Repr

/-- What the block holds while PHASE = XMIT (10_state.md R23, R29). -/
structure Held where
  /-- The command the frame belongs to, decoded (log 12). -/
  cmd : Instr
  frame : Frame
  /-- The registers another agent has written since the frame was handed over (70_reset_and_hazards.md R145, log 8). -/
  foreign : List Byte := []
  deriving DecidableEq, Repr

/-- PHASE (10_state.md R23). -/
inductive Phase where
  | idle
  | xmit (held : Held)
  deriving DecidableEq, Repr

/-- What reaches the block or the target from outside (00_scope.md R5, 70_reset_and_hazards.md R152). -/
inductive Event where
  /-- A host puts a command on the command port. -/
  | offer (c : Command)
  /-- The transport answers; the answer is taken for the frame in flight (log 24). -/
  | answer (status : Status)
  /-- The host takes the presented response (60_exceptions.md R129). -/
  | takeResponse
  /-- The reset signal (70_reset_and_hazards.md R140). -/
  | reset
  /-- Another agent on the bus, such as the lifecycle, writes one target register (R143, R145, log 8, log 9). -/
  | busWrite (a d : Byte)
  deriving DecidableEq, Repr

/-- The machine's state. -/
structure State where
  /-- PHASE and what is held with it (10_state.md R23). -/
  phase : Phase
  /-- The response being presented, if any (R22, R33). -/
  rsp : Option Response
  /-- The configuration (R26, R27); no step changes it. -/
  config : Configuration
  /-- `TREG[0..255]` (R30). -/
  treg : Memory
  /-- The model's own counter of free bytes used so far (log 4). -/
  draws : Nat
  /-- The commands on offer at the command port, first offered first; the block holds none of them (70_reset_and_hazards.md R146). -/
  port : List Command
  /-- The environment's coming events, first to come first (log 1). -/
  events : List Event
  /-- The transactions handed to the transport so far, oldest first. -/
  bus : List Transaction
  /-- The responses presented so far, oldest first (92_eei_decisions.md D30). -/
  responses : List Response
  deriving DecidableEq, Repr

/-- Why the machine stops. -/
inductive Fault where
  /-- Raised by the environment's step, never by an instruction: the transport answers although the block holds no frame.
  No rule describes it; stopping is safe (log 6). -/
  | answerWithoutFrame
  deriving DecidableEq, Repr

/-- Why an instruction has no meaning. -/
inductive Refusal where
  /-- Raised by an arm of `exec` that has no meaning yet; no arm raises it now.
  Safe: nothing is proved of such an instruction. -/
  | notModelled (mnemonic : String)
  deriving DecidableEq, Repr

/-- The machine right after reset (10_state.md R33): IDLE, nothing held, no response; the target's registers as power-on left
them, the configuration open, and nothing recorded or coming from outside (log 2, 3, 4, 20). -/
def State.reset : State where
  phase := .idle
  rsp := none
  config := Config.atReset
  treg := []
  draws := 0
  port := []
  events := []
  bus := []
  responses := []

end Sys2Proof.Machine
end

