-- ==== Sys2Proof/Machine/Operands.lean ====
section
/-! DEFINITION. What the commands compute from their operands: the angle functions (41_angle_pipeline.md R102 to R106), the
angle-to-count map (40_channel_programmer.md R80 to R82), and the frames (30_encoding.md R70 to R72). -/

namespace Sys2Proof.Machine

/-- `fl32(180 - a)` (41_angle_pipeline.md R102). -/
def mirrorAngle (a : Word) : Word := sub32 mirrorPivot a

/-- `fl32(a + d)` (R103). -/
def offsetAngle (a d : Word) : Word := add32 a d

/-- `CLAMP(x, lo, hi)` (R104): one of its three inputs, unrounded. -/
def clampAngle (x lo hi : Word) : Word :=
  if lt32 x lo then lo else if lt32 hi x then hi else x

/-- CLAMP to the limits of a joint class (R104, R105, 30_encoding.md R63). -/
def clampClass (l : Limits) : JointClass → Word → Word
  | .thigh, x => clampAngle x l.minT l.maxT
  | .shank, x => clampAngle x l.minS l.maxS

/-- The mirror step of COND, taken when MIR is 1 (R106). -/
def mirrorIf (mir : Bool) (a : Word) : Word := if mir then mirrorAngle a else a

/-- `p = fl64(widen64(a) * S64)` in units of 2^-200: `a` counts 2^-149 and `S64` counts 2^-51 (40_channel_programmer.md R80). -/
def mapProduct (a : Word) : Int := fl64 (value32 a * mapScaleSig)

/-- `t = fl64(p + 0.5)` in units of 2^-200 (R80). -/
def mapScaled (a : Word) : Int := fl64 (mapProduct a + 2 ^ 199)

/-- `q = trunc(t)`, toward zero (R81). -/
def mapTicks (a : Word) : Int := (mapScaled a).tdiv (2 ^ 200)

/-- `OFFCOUNT(a) = (q + 102) mod 2^16` (R82). -/
def offCount (a : Word) : Count := BitVec.ofInt 16 (mapTicks a + mapZero)

/-- `v[7:0]` (20_memory.md R43). -/
def lowByte (v : Count) : Byte := v.extractLsb' 0 8

/-- `v[15:8]` (R43). -/
def highByte (v : Count) : Byte := v.extractLsb' 8 8

/-- `base(ch) = (0x06 + 4*ch) mod 2^8` (20_memory.md R41). -/
def channelBase (ch : Nat) : Byte := ledBase + BitVec.ofNat 8 (windowStride * ch)

/-- `win(v)` (30_encoding.md R72): the ON pair, then the OFF pair, low byte first. -/
def window (v : Count) : List Byte := [lowByte onCount, highByte onCount, lowByte v, highByte v]

/-- The 5-byte frame of SETCH (R70). -/
def frameOne (ch : Byte) (v : Count) : Frame := channelBase ch.toNat :: window v

/-- The 65-byte frame of SETALL (R71). -/
def frameAll (counts : List Count) : Frame := ledBase :: counts.flatMap window

end Sys2Proof.Machine
end

