-- ==== Sys2Proof/Machine/Flags.lean ====
section
/-! DEFINITION. The block has no flags (10_state.md R25): the one outcome a command reports is the result code of its response (60_exceptions.md R120). -/

namespace Sys2Proof.Machine

/-- The result codes of R120. -/
inductive ResultCode where
  | ok
  | invalidChannel
  | transportFailure
  | illegalCommand
  | invalidAngle
  deriving DecidableEq, Repr

/-- The byte of a result code (R120). -/
def resultByte : ResultCode → Byte
  | .ok => 0x00
  | .invalidChannel => 0x01
  | .transportFailure => 0x02
  | .illegalCommand => 0x03
  | .invalidAngle => 0x04

/-- The code SETCH and SETALL report for the transport's answer (R120, R124). -/
def statusCode : Status → ResultCode
  | .success => .ok
  | .failure => .transportFailure

end Sys2Proof.Machine
end

