-- ==== Sys2Proof/Machine/Ops.lean ====
section
/-! DEFINITION. The named operations: the target's registers, presenting a response, raising a result code, `Transmit`, and what
a frame, an answer, a reset and another agent's write do (20_memory.md R45 to R47, 60_exceptions.md R126, 70_reset_and_hazards.md R140 to R145). -/

namespace Sys2Proof.Machine

/-- The byte listed for a register, if any. -/
def Memory.lookup : Memory → Nat → Option Byte
  | [], _ => none
  | (b, v) :: m, a => if b = a then some v else Memory.lookup m a

/-- `TREG[a]`: the byte listed, or the power-on byte that nothing fixes (10_state.md R30, 70_reset_and_hazards.md R142, log 3). -/
def Memory.read (m : Memory) (a : Byte) : Byte := (m.lookup a.toNat).getD (Config.tregPowerOn a.toNat)

/-- List byte `v` at address `a`, in place. -/
def Memory.put : Memory → Nat → Byte → Memory
  | [], a, v => [(a, v)]
  | (b, w) :: m, a, v =>
    if a < b then (a, v) :: (b, w) :: m
    else if a = b then (a, v) :: m
    else (b, w) :: Memory.put m a v

/-- `TREG[a] <- v`. -/
def Memory.write (m : Memory) (a v : Byte) : Memory := m.put a.toNat v

/-- The registers a run of `n` data bytes addresses from `a` on, modulo 2^8 (20_memory.md R45). -/
def addressRun : Byte → Nat → List Byte
  | _, 0 => []
  | a, n + 1 => a :: addressRun (a + 1) n

/-- The registers a frame addresses: one for each data byte, from its first byte on (R45). -/
def addressed : Frame → List Byte
  | [] => []
  | a :: ds => addressRun a ds.length

/-- Data bytes arriving from register `a` on (R45 to R47).
Each addressed register takes its data byte if the frame landed and no other agent wrote that register meanwhile, and
otherwise the next free byte (log 4, log 8). -/
def landData (landed : Bool) (foreign : List Byte) : Nat → Byte → List Byte → Memory → Memory
  | _, _, [], m => m
  | k, a, d :: ds, m =>
    landData landed foreign (k + 1) (a + 1) ds
      (m.write a (if landed && !foreign.contains a then d else Config.freeByte k))

/-- A frame's effect on the target's registers. -/
def landFrame (landed : Bool) (foreign : List Byte) (draw : Nat) : Frame → Memory → Memory
  | [], m => m
  | a :: ds, m => landData landed foreign draw a ds m

/-- AUTOINC, bit 5 of `TREG[0x00]` (10_state.md R31, 20_memory.md R45). -/
def autoInc (m : Memory) : Bool := m.read mode1 &&& mode1AutoInc != 0

/-- Present a response (10_state.md R22, R23): it stands at the response port, in place of one not yet taken (log 5), and joins
the list of D30. -/
def present (r : Response) (s : State) : State :=
  { s with rsp := some r, responses := s.responses ++ [r] }

/-- A command that ends with RES = OK and a value (R22, 30_encoding.md R73). -/
def succeed (val : Word) (s : State) : State := present ⟨resultByte .ok, val⟩ s

/-- `raise` (00_scope.md R9, 60_exceptions.md R126): the response carries the code with VAL = 0, and nothing else changes.
The block has no other error entry, and no return from one (R128). -/
def raise (code : ResultCode) (s : State) : State := present ⟨resultByte code, 0⟩ s

/-- A command whose result is the angle `r`, which must be finite (41_angle_pipeline.md R101, R103). -/
def returnAngle (r : Word) (s : State) : State :=
  if isFinite32 r then succeed r s else raise .invalidAngle s

/-- `Transmit(frame)` (00_scope.md R9, 10_state.md R23): the frame goes to the transport with DEVICE_ADDRESS and BUS_TIMEOUT, and
the block holds it with its command until the answer; no response is presented meanwhile (log 5).
DESIGN CHOICE (log 23): the target's registers keep their bytes while the frame is in flight; no rule says what they hold. -/
def transmit (cmd : Instr) (frame : Frame) (s : State) : State :=
  { s with
    phase := .xmit { cmd := cmd, frame := frame }
    rsp := none
    bus := s.bus ++ [⟨s.config.deviceAddress, s.config.busTimeout, frame⟩] }

/-- Whether a frame that was answered with `status` wrote its data bytes (20_memory.md R45 to R47): the answer is SUCCESS, and
AUTOINC is 1 at that time. -/
def frameLanded (status : Status) (m : Memory) : Bool := decide (status = .success) && autoInc m

/-- The frame leaves the block: the addressed registers change as `landed` says, not before this moment (log 23), and PHASE is
IDLE. -/
def releaseFrame (landed : Bool) (h : Held) (s : State) : State :=
  { s with
    phase := .idle
    treg := landFrame landed h.foreign s.draws h.frame s.treg
    draws := s.draws + (addressed h.frame).length }

/-- The transport answers (10_state.md R23): the frame has its effect, then the response is presented, with VAL = 0 (R22). -/
def complete (status : Status) (h : Held) (s : State) : State :=
  raise (statusCode status) (releaseFrame (frameLanded status s.treg) h s)

/-- The block's reset (70_reset_and_hazards.md R140 to R142): IDLE, nothing held, no response; a frame in flight leaves its
registers unconstrained (R141), and nothing else changes (log 16). -/
def resetBlock (s : State) : State :=
  match s.phase with
  | .idle => { s with rsp := none }
  | .xmit h => { releaseFrame false h s with rsp := none }

/-- Another agent's write of one register (70_reset_and_hazards.md R143, R145, log 8): an ordinary write, except that a register
of the frame in flight becomes unconstrained. -/
def foreignWrite (a d : Byte) (s : State) : State :=
  match s.phase with
  | .idle => { s with treg := s.treg.write a d }
  | .xmit h =>
    let h' := { h with foreign := a :: h.foreign }
    if (addressed h.frame).contains a then
      { s with phase := .xmit h', treg := s.treg.write a (Config.freeByte s.draws), draws := s.draws + 1 }
    else { s with phase := .xmit h', treg := s.treg.write a d }

end Sys2Proof.Machine
end

