-- ==== Sys2Proof/Machine/AnglePipeline.lean ====
section
/-! DEFINITION. The meanings of the angle pipeline's commands: MIRROR, OFFSET, CLAMPT, CLAMPS, COND (41_angle_pipeline.md R101 to R106).
They are pure: operands and configuration in, response out (R109). -/

namespace Sys2Proof.Machine

/-- MIRROR (R102). -/
def execMirror (a : Word) (s : State) : Host.Outcome State Fault Refusal :=
  if isFinite32 a then .next (succeed (mirrorAngle a) s) else .next (raise .invalidAngle s)

/-- OFFSET (R103): a sum that overflows is INVALID_ANGLE too. -/
def execOffset (a d : Word) (s : State) : Host.Outcome State Fault Refusal :=
  if isFinite32 a && isFinite32 d then .next (returnAngle (offsetAngle a d) s)
  else .next (raise .invalidAngle s)

/-- CLAMPT (R104): the thigh limits. -/
def execClampt (a : Word) (s : State) : Host.Outcome State Fault Refusal :=
  if isFinite32 a then .next (succeed (clampClass s.config.limits .thigh a) s)
  else .next (raise .invalidAngle s)

/-- CLAMPS (R105): the shank limits. -/
def execClamps (a : Word) (s : State) : Host.Outcome State Fault Refusal :=
  if isFinite32 a then .next (succeed (clampClass s.config.limits .shank a) s)
  else .next (raise .invalidAngle s)

/-- COND (R106): optional mirror, then offset, then the clamp of the class. -/
def execCond (mir : Bool) (cls : JointClass) (a d : Word) (s : State) : Host.Outcome State Fault Refusal :=
  if isFinite32 a && isFinite32 d then
    let o := offsetAngle (mirrorIf mir a) d
    if isFinite32 o then .next (succeed (clampClass s.config.limits cls o) s)
    else .next (raise .invalidAngle s)
  else .next (raise .invalidAngle s)

end Sys2Proof.Machine
end

