-- ==== Sys2Proof/Machine/ChannelProgrammer.lean ====
section
/-! DEFINITION. The meanings of the channel programmer's commands: SETCH, SETALL, A2OFF (40_channel_programmer.md R84 to R86). -/

namespace Sys2Proof.Machine

/-- SETCH (R84): the channel first, then the angle, then one 5-byte frame. -/
def execSetch (ch : Byte) (a : Word) (s : State) : Host.Outcome State Fault Refusal :=
  if channelCount ≤ ch.toNat then .next (raise .invalidChannel s)
  else if isFinite32 a then .next (transmit (.setch ch a) (frameOne ch (offCount a)) s)
  else .next (raise .invalidAngle s)

/-- SETALL (R85): every angle is checked before the one 65-byte frame is sent. -/
def execSetall (ang : Vector Word 16) (s : State) : Host.Outcome State Fault Refusal :=
  if ang.toList.all isFinite32 then .next (transmit (.setall ang) (frameAll (ang.toList.map offCount)) s)
  else .next (raise .invalidAngle s)

/-- A2OFF (R86): the count, zero-extended, with no bus traffic. -/
def execA2off (a : Word) (s : State) : Host.Outcome State Fault Refusal :=
  if isFinite32 a then .next (succeed ((offCount a).zeroExtend 32) s)
  else .next (raise .invalidAngle s)

end Sys2Proof.Machine
end

