-- ==== Sys2Proof/Machine/Dispatch.lean ====
section
/-! DEFINITION. One arm per command: the meaning of each constructor of Instr.

The sequencer, not these arms, sees that commands run in IDLE only (log 18). -/

namespace Sys2Proof.Machine

def exec (i : Instr) (s : State) : Host.Outcome State Fault Refusal :=
  match i with
  | .setch ch a => Sys2Proof.Machine.execSetch ch a s
  | .setall ang => Sys2Proof.Machine.execSetall ang s
  | .mirror a => Sys2Proof.Machine.execMirror a s
  | .offset a d => Sys2Proof.Machine.execOffset a d s
  | .clampt a => Sys2Proof.Machine.execClampt a s
  | .clamps a => Sys2Proof.Machine.execClamps a s
  | .cond mir cls a d => Sys2Proof.Machine.execCond mir cls a d s
  | .a2off a => Sys2Proof.Machine.execA2off a s

end Sys2Proof.Machine
end

