-- ==== Sys2Proof/Machine/Sequencer.lean ====
section
/-! DEFINITION. The sequencer (10_state.md R23, 70_reset_and_hazards.md R146): accepting a command in IDLE, and what each event from outside does. -/

namespace Sys2Proof.Machine

/-- Accept a command (R23): run it, or answer ILLEGAL_COMMAND for a word no row selects (30_encoding.md R65, 60_exceptions.md R121). -/
def accept (c : Command) (s : State) : Host.Outcome State Fault Refusal :=
  match decode c with
  | .instr i => exec i s
  | .illegal _ => .next (raise .illegalCommand s)

/-- The transport's answer: it completes the frame in flight; with none in flight no rule describes it (log 6).
DESIGN CHOICE (log 24): an answer names no frame, so one that comes late, after a reset aborted its frame, is read as the
answer to the frame then in flight, if any. -/
def receiveAnswer (status : Status) (s : State) : Host.Outcome State Fault Refusal :=
  match s.phase with
  | .idle => .fault .answerWithoutFrame
  | .xmit h => .next (complete status h s)

/-- An event from outside arrives (70_reset_and_hazards.md R152). -/
def deliver (e : Event) (s : State) : Host.Outcome State Fault Refusal :=
  match e with
  | .offer c => .next { s with port := s.port ++ [c] }
  | .answer status => receiveAnswer status s
  | .takeResponse => .next { s with rsp := none }
  | .reset => .next (resetBlock s)
  | .busWrite a d => .next (foreignWrite a d s)

/-- The environment's move: its next event, or, when none is to come, waiting (70_reset_and_hazards.md R151, log 7). -/
def environmentMove (s : State) : Host.Outcome State Fault Refusal :=
  match s.events with
  | [] => .next s
  | e :: es => deliver e { s with events := es }

/-- One step: in IDLE the first command on offer is accepted; otherwise the environment moves (log 1).
While PHASE = XMIT no command is accepted (R146). -/
def sequencerStep (s : State) : Host.Outcome State Fault Refusal :=
  match s.phase, s.port with
  | .idle, c :: cs => accept c { s with port := cs }
  | _, _ => environmentMove s

/-- The state in which command `c` is the next the block accepts: PHASE is IDLE and `c` is first on the port (log 13). -/
def placeCommand (c : Command) (s : State) : State := { s with phase := .idle, port := c :: s.port }

end Sys2Proof.Machine
end

