-- ==== Sys2Proof/Machine/Step.lean ====
section
/-! DEFINITION. One step of the machine, and placing a command where the next step takes it. -/

namespace Sys2Proof.Machine

/-- One step (10_state.md R23). -/
def step (s : State) : Host.Outcome State Fault Refusal := sequencerStep s

/-- `s` with the command word `w` first on the command port of an idle block (log 13). -/
def State.withFetchWord (s : State) (nbits w : Nat) : State := placeCommand (tableCommand nbits w) s

end Sys2Proof.Machine
end

