-- ==== Sys2Proof/Machine/Assembler.lean ====
section
/-! DEFINITION. The host's side of a command: assembler lines (30_encoding.md R68) and pseudo-instructions (R69).

A line is given as its mnemonic and operand tokens; cutting text into tokens is left out (log 19). -/

namespace Sys2Proof.Machine

/-- The mnemonics of R68. -/
inductive Mnemonic where
  | setch | setall | mirror | offset | clampt | clamps | cond | a2off
  deriving DecidableEq, Repr

/-- An operand as written: `-12.5` is `decimal true 125 1`, `0x0A` is `hex 10 2`, `T` is `letter 'T'`. -/
inductive Token where
  | decimal (negative : Bool) (digits scale : Nat)
  | hex (value digits : Nat)
  | letter (c : Char)
  deriving DecidableEq, Repr

/-- A channel operand (R68): an integer in 0..255, decimal or hexadecimal. -/
def channelOperand : Token → Option Byte
  | .decimal false n 0 => if n < 256 then some (BitVec.ofNat 8 n) else none
  | .hex n _ => if n < 256 then some (BitVec.ofNat 8 n) else none
  | _ => none

/-- An angle operand (R68): `fl32` of a decimal literal, or exactly 8 hexadecimal digits, the raw bits.
A negative zero literal keeps its sign, as in program P3 of 95_test_vectors.md (log 22). -/
def angleOperand : Token → Option Word
  | .decimal neg n k => some (pack32 neg (encodeRatio32 n (10 ^ k)))
  | .hex n 8 => if n < 2 ^ 32 then some (BitVec.ofNat 32 n) else none
  | _ => none

/-- A class operand (R68): `T` or `S`. -/
def classOperand : Token → Option JointClass
  | .letter c => if c = 'T' then some .thigh else if c = 'S' then some .shank else none
  | _ => none

/-- The optional last operand of COND (R68): `M`. -/
def mirrorOperand : List Token → Option Bool
  | [] => some false
  | [.letter c] => if c = 'M' then some true else none
  | _ => none

/-- The instruction with one angle operand that a line stands for. -/
def oneAngle (f : Word → Instr) : List Token → Option Instr
  | [a] => (angleOperand a).map f
  | _ => none

/-- Exactly 16 angle operands (R68). -/
def sixteenAngles (ops : List Token) : Option (Vector Word 16) :=
  match ops.mapM angleOperand with
  | some ws => if h : ws.length = 16 then some ⟨ws.toArray, by simpa using h⟩ else none
  | none => none

/-- The instruction an assembler line stands for; `none` where the assembler rejects the line (R68). -/
def assembleInstr : Mnemonic → List Token → Option Instr
  | .setch, [c, a] =>
    match channelOperand c, angleOperand a with
    | some ch, some w => some (.setch ch w)
    | _, _ => none
  | .setch, _ => none
  | .setall, ops => (sixteenAngles ops).map .setall
  | .mirror, ops => oneAngle .mirror ops
  | .offset, [a, d] =>
    match angleOperand a, angleOperand d with
    | some x, some y => some (.offset x y)
    | _, _ => none
  | .offset, _ => none
  | .clampt, ops => oneAngle .clampt ops
  | .clamps, ops => oneAngle .clamps ops
  | .cond, a :: d :: c :: rest =>
    match angleOperand a, angleOperand d, classOperand c, mirrorOperand rest with
    | some x, some y, some cls, some mir => some (.cond mir cls x y)
    | _, _, _, _ => none
  | .cond, _ => none
  | .a2off, ops => oneAngle .a2off ops

/-- The command record of a line (R68): unused operand fields are 0. -/
def assemble (m : Mnemonic) (ops : List Token) : Option Command := (assembleInstr m ops).map encode

/-- `SETALLSAME a` (R69): SETALL with 16 copies of `a`. -/
def setAllSame (a : Word) : Instr := .setall (Vector.replicate 16 a)

/-- The first command of `SETJOINT ch, a, d, cls[, M]` (R69). -/
def setJointFirst (a d : Word) (cls : JointClass) (mir : Bool) : Instr := .cond mir cls a d

/-- The second command of `SETJOINT`, after COND's response: SETCH with its VAL, or nothing where COND was not OK (R69). -/
def setJointSecond (ch : Byte) (r : Response) : Option Instr :=
  if r.res = resultByte .ok then some (.setch ch r.val) else none

end Sys2Proof.Machine
end

