-- ==== Sys2Proof/Safety.lean ====
section
/-! DEFINITION. What the claims speak of: the invariant of every step, the angle domain, and the registers the block may write. -/

namespace Sys2Proof.Machine

/-- The frame a command hands to the transport when every check passes (40_channel_programmer.md R84, R85); none for a command
that is rejected or has no frame. -/
def frameOf : Instr → Option Frame
  | .setch ch a =>
    if ch.toNat < channelCount ∧ isFinite32 a = true then some (frameOne ch (offCount a)) else none
  | .setall ang =>
    if ang.toList.all isFinite32 then some (frameAll (ang.toList.map offCount)) else none
  | .mirror _ => none
  | .offset _ _ => none
  | .clampt _ => none
  | .clamps _ => none
  | .cond _ _ _ _ => none
  | .a2off _ => none

/-- The commands that only answer (41_angle_pipeline.md R109). -/
def isPure : Instr → Bool
  | .setch _ _ => false
  | .setall _ => false
  | .mirror _ => true
  | .offset _ _ => true
  | .clampt _ => true
  | .clamps _ => true
  | .cond _ _ _ _ => true
  | .a2off _ => true

/-- The commands whose VAL is an angle (10_state.md R22). -/
def returnsAngle : Instr → Bool
  | .setch _ _ => false
  | .setall _ => false
  | .mirror _ => true
  | .offset _ _ => true
  | .clampt _ => true
  | .clamps _ => true
  | .cond _ _ _ _ => true
  | .a2off _ => false

/-- The response a command presents when it runs in `s`, if it presents one. -/
def answerOf (i : Instr) (s : State) : Option Response :=
  match exec i s with
  | .next t => t.rsp
  | .fault _ => none
  | .refused _ => none

/-- The host's next command in a sequence: fed the previous VAL if it was OK, not issued otherwise (30_encoding.md R69,
41_angle_pipeline.md R106). -/
def thenOk (r : Option Response) (next : Word → Option Response) : Option Response :=
  match r with
  | some ⟨res, val⟩ => if res = 0x00 then next val else some ⟨res, val⟩
  | none => none

/-- The channel windows, 0x06..0x45 (20_memory.md R42). -/
def inWindows (a : Byte) : Prop := 0x06 ≤ a.toNat ∧ a.toNat ≤ 0x45

/-- A finite angle in the domain of 40_channel_programmer.md R83, between the binary32 values 0xC235E5E7 and 0x44DB53A0. -/
def inDomain (a : Word) : Prop :=
  isFinite32 a = true ∧ value32 0xC235E5E7 ≤ value32 a ∧ value32 a ≤ value32 0x44DB53A0

/-- The clamp limits lie in the domain (70_reset_and_hazards.md R148). -/
def limitsInDomain (l : Limits) : Prop := inDomain l.minT ∧ inDomain l.maxT ∧ inDomain l.minS ∧ inDomain l.maxS

/-- A response as R22 and R120 allow it: one of the five codes, and VAL 0 unless the code is OK. -/
def legalResponse (r : Response) : Prop := (∃ c, r.res = resultByte c) ∧ (r.res ≠ resultByte .ok → r.val = 0)

/-- What every step keeps. -/
structure State.Inv (s : State) : Prop where
  /-- The target's registers are in canonical form. -/
  registers : s.treg.wf
  /-- While a frame is in flight no response is presented (10_state.md R23). -/
  quiet : ∀ h, s.phase = .xmit h → s.rsp = none
  /-- The held frame is its command's frame, and the last one handed to the transport, with the configured address and timeout. -/
  held : ∀ h, s.phase = .xmit h →
    frameOf h.cmd = some h.frame ∧
    s.bus.getLast? = some ⟨s.config.deviceAddress, s.config.busTimeout, h.frame⟩
  /-- A response still presented is the last one. -/
  shown : ∀ r, s.rsp = some r → s.responses.getLast? = some r
  /-- Every response is legal (R22, R120). -/
  legal : ∀ r ∈ s.responses, legalResponse r
  /-- Every frame handed to the transport is some command's frame. -/
  frames : ∀ x ∈ s.bus, ∃ i, frameOf i = some x.frame

end Sys2Proof.Machine
end

