-- ==== Sys2Proof/Certificates/Slice0/Obligations.lean ====
section
/-! DEFINITION. The statements about the model, from the numbered rules of the spec.

A response not yet taken is replaced by a new one, and withdrawn when a frame is handed over (log 5).
The target's registers keep their bytes until a frame in flight is answered or aborted (log 23). -/

open Sys2Proof Sys2Proof.Machine

/-! ### Encoding -/

/-- Words of 95_test_vectors.md (V-DEC, V-ERR) and 30_encoding.md R64 decode to the commands they stand for, or are illegal. -/
def Obligations.DecodeOfSpecWords : Prop :=
  (∀ a, decode { word := 0x00000F01, a := a } = .instr (.setch 15 a)) ∧
  (∀ a, decode { word := 0x00001001, a := a } = .instr (.setch 16 a)) ∧
  (∀ ang, decode { word := 0x00000002, ang := ang } = .instr (.setall ang)) ∧
  (∀ a, decode { word := 0x00000010, a := a } = .instr (.mirror a)) ∧
  (∀ a d, decode { word := 0x00000011, a := a, d := d } = .instr (.offset a d)) ∧
  (∀ a, decode { word := 0x00000012, a := a } = .instr (.clampt a)) ∧
  (∀ a, decode { word := 0x00000013, a := a } = .instr (.clamps a)) ∧
  (∀ a d, decode { word := 0x00020014, a := a, d := d } = .instr (.cond false .shank a d)) ∧
  (∀ a d, decode { word := 0x00010014, a := a, d := d } = .instr (.cond true .thigh a d)) ∧
  (∀ a, decode { word := 0x00000015, a := a } = .instr (.a2off a)) ∧
  decode { word := 0x00000016 } = .illegal .unassignedOp ∧
  decode { word := 0x00000114 } = .illegal .bitOutsideMask ∧
  decode { word := 0x00010001 } = .illegal .bitOutsideMask ∧
  decode { word := 0x80000001 } = .illegal .bitOutsideMask

/-- Encoding a command and decoding it gives the command back, with every operand (R60, R64). -/
def Obligations.DecodeOfEncodeIsIdentity : Prop :=
  ∀ i : Instr, decode (encode i) = .instr i

/-- R65: a word decodes exactly when a row of R64 selects it, to a command of that row, and at most one row selects it. -/
def Obligations.DecodeFollowsOpcodeMap : Prop :=
  (∀ c : Command, (∃ i, decode c = .instr i) ↔ wordWellFormed c.word = true) ∧
  (∀ (c : Command) (i : Instr), decode c = .instr i → rowOf c.word = some (mnemonicOf i)) ∧
  (∀ w : Word, ∀ r ∈ opcodeMap, ∀ r' ∈ opcodeMap, r.selects w = true → r'.selects w = true → r = r')

/-- Decoding loses no bit of the command word: encoding the decoded command gives the same word (R60, R66). -/
def Obligations.EncodeOfDecodeKeepsTheWord : Prop :=
  ∀ (c : Command) (i : Instr), decode c = .instr i → (encode i).word = c.word

/-- R61: operand fields that the command word's OP does not use are ignored. -/
def Obligations.UnusedOperandsAreIgnored : Prop :=
  ∀ c c' : Command, c.word = c'.word →
    (opField c.word ∈ [0x01#8, 0x10, 0x11, 0x12, 0x13, 0x14, 0x15] → c.a = c'.a) →
    (opField c.word ∈ [0x11#8, 0x14] → c.d = c'.d) →
    (opField c.word = 0x02 → c.ang = c'.ang) →
    decode c = decode c'

/-- Assembler lines of R68 and R69: what they assemble to, and what the assembler rejects. -/
def Obligations.AssemblerLines : Prop :=
  assemble .setch [.decimal false 3 0, .decimal false 300 1] = some { word := 0x00000301, a := 0x41F00000 } ∧
  assemble .setch [.hex 0x0E 2, .decimal true 0 1] = some { word := 0x00000E01, a := 0x80000000 } ∧
  assemble .cond [.decimal false 45 0, .decimal true 35 1, .letter 'S', .letter 'M'] =
    some { word := 0x00030014, a := 0x42340000, d := 0xC0600000 } ∧
  assemble .offset [.decimal false 1 1, .hex 0x3E4CCCCD 8] =
    some { word := 0x00000011, a := 0x3DCCCCCD, d := 0x3E4CCCCD } ∧
  (∀ a ops, assemble .setch (.decimal false 256 0 :: a :: ops) = none) ∧
  (∀ ops, ops.length ≠ 16 → assemble .setall ops = none) ∧
  assemble .cond [.decimal false 45 0, .decimal true 35 1, .letter 'X'] = none ∧
  (∀ a, encode (setAllSame a) = { word := 0x00000002, ang := Vector.replicate 16 a })

/-! ### The sequencer -/

/-- A step in IDLE with a command first on the port, whose record decodes, is that command's run on the state without the
command on the port (10_state.md R23). -/
def Obligations.StepRunsDecodedCommand : Prop :=
  ∀ (s : State) (c : Command) (cs : List Command) (i : Instr),
    s.phase = .idle → s.port = c :: cs → decode c = .instr i → step s = exec i { s with port := cs }

/-- R121: a word that no row selects ends with ILLEGAL_COMMAND and VAL 0, whatever the operands are; nothing else changes. -/
def Obligations.IllegalWordAnswersIllegalCommand : Prop :=
  ∀ (s : State) (c : Command) (cs : List Command),
    s.phase = .idle → s.port = c :: cs → wordWellFormed c.word = false →
    step s = .next { s with port := cs, rsp := some ⟨0x03, 0⟩, responses := s.responses ++ [⟨0x03, 0⟩] }

/-- R23: every command of the opcode map, in every state and on every operand, completes its step; none stops the machine. -/
def Obligations.EveryCommandAnswersANextState : Prop :=
  ∀ (i : Instr) (s : State), ∃ t, exec i s = .next t

/-- The one way the machine stops is the model's own choice (log 6): in IDLE with nothing on offer, the transport answers. -/
def Obligations.OnlyAStrayAnswerStopsTheMachine : Prop :=
  ∀ s : State,
    (∃ t, step s = .next t) ∨
    (step s = .fault .answerWithoutFrame ∧ s.phase = .idle ∧ s.port = [] ∧ ∃ x es, s.events = .answer x :: es)

/-- R146, R127: while PHASE = XMIT no step takes a command off the port or reorders it, and no frame is handed over or re-sent. -/
def Obligations.XmitAcceptsNoCommand : Prop :=
  ∀ (s t : State) (h : Held), s.phase = .xmit h → step s = .next t →
    s.port <+: t.port ∧ t.bus = s.bus ∧
    (t.phase = .idle ∨ ∃ h', t.phase = .xmit h' ∧ h'.cmd = h.cmd ∧ h'.frame = h.frame)

/-- R146, R152: a command that a host offers joins the end of the port, in XMIT and in IDLE, where the events come once nothing
waits (log 1); nothing else changes.
That the registers of a frame in flight keep their bytes so far is the model's choice (log 23). -/
def Obligations.OfferJoinsThePort : Prop :=
  ∀ (s : State) (c : Command) (es : List Event), (s.phase = .idle → s.port = []) → s.events = .offer c :: es →
    step s = .next { s with events := es, port := s.port ++ [c] }

/-- R151: with no event to come, a block that waits for the transport stays in XMIT; that the target's registers keep their
bytes meanwhile is the model's choice (log 23). -/
def Obligations.WaitsForTheTransport : Prop :=
  ∀ (s : State) (h : Held), s.phase = .xmit h → s.events = [] → step s = .next s

/-- R22: accepting a command presents exactly one response, or hands over exactly one frame and presents none yet; the
transport's answer to that frame presents exactly one. -/
def Obligations.OneResponsePerCommand : Prop :=
  (∀ (s t : State) (c : Command) (cs : List Command),
    s.phase = .idle → s.port = c :: cs → step s = .next t →
    (∃ r, t.phase = .idle ∧ t.rsp = some r ∧ t.responses = s.responses ++ [r] ∧ t.bus = s.bus) ∨
    (∃ h x, t.phase = .xmit h ∧ t.rsp = none ∧ t.responses = s.responses ∧ t.bus = s.bus ++ [x] ∧ x.frame = h.frame)) ∧
  (∀ (s : State) (h : Held) (x : Status) (es : List Event),
    s.phase = .xmit h → s.events = .answer x :: es →
    ∃ t r, step s = .next t ∧ t.phase = .idle ∧ t.rsp = some r ∧ t.responses = s.responses ++ [r] ∧ t.bus = s.bus)

/-- R129: when the host takes the response, with no command waiting at an idle block (log 1), the response is cleared and nothing
else changes. A command that runs clears or replaces a response too (log 5).
That the registers of a frame in flight keep their bytes so far is the model's choice (log 23). -/
def Obligations.TakingTheResponseClearsIt : Prop :=
  ∀ (s : State) (es : List Event), (s.phase = .idle → s.port = []) → s.events = .takeResponse :: es →
    step s = .next { s with events := es, rsp := none }

/-! ### Reset -/

/-- R33: after reset the block is IDLE, holds nothing and presents no response. -/
def Obligations.ResetStateIsIdle : Prop :=
  State.reset.phase = .idle ∧ State.reset.rsp = none

/-- R140, R142: a reset in IDLE leaves the block IDLE with no response, sends no frame, and changes no target register and
no configuration. -/
def Obligations.ResetInIdle : Prop :=
  ∀ (s : State) (es : List Event), s.phase = .idle → s.port = [] → s.events = .reset :: es →
    step s = .next { s with events := es, rsp := none }

/-- R141: a reset in XMIT discards the frame and its command without a response; each register the frame addresses holds a
free byte of its own, and every other register is unchanged. -/
def Obligations.ResetInXmit : Prop :=
  ∀ (s : State) (h : Held) (a : Byte) (ds : List Byte) (es : List Event),
    s.phase = .xmit h → h.frame = a :: ds → ds.length ≤ 256 → s.events = .reset :: es →
    ∃ t, step s = .next t ∧ t.phase = .idle ∧ t.rsp = none ∧ t.responses = s.responses ∧ t.bus = s.bus ∧
      t.config = s.config ∧ t.port = s.port ∧
      (∀ k < ds.length, t.treg.read (a + BitVec.ofNat 8 k) = Config.freeByte (s.draws + k)) ∧
      (∀ b, (∀ k < ds.length, b ≠ a + BitVec.ofNat 8 k) → t.treg.read b = s.treg.read b)

/-! ### Frames and the target's registers -/

/-- R42: the sixteen windows, four registers each, cover 0x06..0x45 without gaps or overlap. -/
def Obligations.WindowsTileTheirRange : Prop :=
  ∀ b : Byte, (6 ≤ b.toNat ∧ b.toNat ≤ 69) ↔
    ((∃ ch < 16, ∃ k < 4, b = channelBase ch + BitVec.ofNat 8 k) ∧
     (∀ ch < 16, ∀ k < 4, ∀ ch' < 16, ∀ k' < 4,
        b = channelBase ch + BitVec.ofNat 8 k → b = channelBase ch' + BitVec.ofNat 8 k' → ch = ch' ∧ k = k'))

/-- R49: a command's frame has 5 bytes or 65, and every register it addresses lies in the windows. -/
def Obligations.FramesHaveTwoShapes : Prop :=
  ∀ (i : Instr) (f : Frame), frameOf i = some f →
    (f.length = 5 ∨ f.length = 65) ∧ ∀ b ∈ addressed f, inWindows b

/-- R45, R145: on SUCCESS with AUTOINC 1 at the answer, register `a + k` ends with data byte `k`, or with a free byte if another
agent wrote that register too while the frame was in flight; every other register is unchanged, whatever else the other agent
wrote (log 8). -/
def Obligations.SuccessWritesTheFrame : Prop :=
  ∀ (s : State) (h : Held) (a : Byte) (ds : List Byte) (es : List Event),
    s.phase = .xmit h → h.frame = a :: ds → ds.length ≤ 256 →
    s.events = .answer .success :: es → (s.treg.read 0x00).getLsbD 5 = true →
    ∃ t, step s = .next t ∧ t.phase = .idle ∧ t.rsp = some ⟨0x00, 0⟩ ∧
      (∀ k, (hk : k < ds.length) → t.treg.read (a + BitVec.ofNat 8 k) =
        if a + BitVec.ofNat 8 k ∈ h.foreign then Config.freeByte (s.draws + k) else ds[k]) ∧
      (∀ b, (∀ k < ds.length, b ≠ a + BitVec.ofNat 8 k) → t.treg.read b = s.treg.read b)

/-- R46: on SUCCESS with AUTOINC 0, each addressed register holds a free byte of its own, and every other is unchanged. -/
def Obligations.SuccessWithoutAutoIncrement : Prop :=
  ∀ (s : State) (h : Held) (a : Byte) (ds : List Byte) (es : List Event),
    s.phase = .xmit h → h.frame = a :: ds → ds.length ≤ 256 →
    s.events = .answer .success :: es → (s.treg.read 0x00).getLsbD 5 = false →
    ∃ t, step s = .next t ∧ t.phase = .idle ∧ t.rsp = some ⟨0x00, 0⟩ ∧
      (∀ k < ds.length, t.treg.read (a + BitVec.ofNat 8 k) = Config.freeByte (s.draws + k)) ∧
      (∀ b, (∀ k < ds.length, b ≠ a + BitVec.ofNat 8 k) → t.treg.read b = s.treg.read b)

/-- R47, R124: on FAILURE the response is TRANSPORT_FAILURE with VAL 0, each addressed register holds a free byte of its own, and
every other register is unchanged; nothing is sent again. -/
def Obligations.FailureLeavesTheFrameUnknown : Prop :=
  ∀ (s : State) (h : Held) (a : Byte) (ds : List Byte) (es : List Event),
    s.phase = .xmit h → h.frame = a :: ds → ds.length ≤ 256 → s.events = .answer .failure :: es →
    ∃ t, step s = .next t ∧ t.phase = .idle ∧ t.rsp = some ⟨0x02, 0⟩ ∧ t.bus = s.bus ∧
      (∀ k < ds.length, t.treg.read (a + BitVec.ofNat 8 k) = Config.freeByte (s.draws + k)) ∧
      (∀ b, (∀ k < ds.length, b ≠ a + BitVec.ofNat 8 k) → t.treg.read b = s.treg.read b)

/-- R145, U16: a register that another agent wrote while the frame was in flight holds a free byte after the answer, whatever
the answer is, if the frame addresses it too. -/
def Obligations.ContendedRegistersAreUnconstrained : Prop :=
  ∀ (s : State) (h : Held) (a : Byte) (ds : List Byte) (x : Status) (es : List Event) (k : Nat),
    s.phase = .xmit h → h.frame = a :: ds → ds.length ≤ 256 → k < ds.length →
    a + BitVec.ofNat 8 k ∈ h.foreign → s.events = .answer x :: es →
    ∃ t, step s = .next t ∧ t.treg.read (a + BitVec.ofNat 8 k) = Config.freeByte (s.draws + k)

/-- Another agent's write of one register (R143, R145; the model's choice of event, log 8): in IDLE the register holds the byte
written; in XMIT it does so unless the frame in flight addresses it, and then it holds a free byte; no other register changes.
That the other registers of the frame in flight keep their bytes so far is the model's choice (log 23). -/
def Obligations.ForeignWriteReachesOneRegister : Prop :=
  ∀ (s : State) (a d : Byte) (es : List Event), (s.phase = .idle → s.port = []) → s.events = .busWrite a d :: es →
    ∃ t, step s = .next t ∧
      (s.phase = .idle → t.phase = .idle ∧ t.treg.read a = d) ∧
      (∀ h, s.phase = .xmit h →
        t.phase = .xmit { h with foreign := a :: h.foreign } ∧
        t.treg.read a = if a ∈ addressed h.frame then Config.freeByte s.draws else d) ∧
      (∀ b, b ≠ a → t.treg.read b = s.treg.read b) ∧
      t.rsp = s.rsp ∧ t.responses = s.responses ∧ t.bus = s.bus ∧ t.port = s.port ∧ t.config = s.config

/-! ### The channel programmer -/

/-- R84, R70: SETCH on a valid channel and a finite angle hands over one 5-byte frame and enters XMIT; a response not yet taken is
withdrawn (the model's reading, log 5), the target's registers keep their bytes so far (the model's choice, log 23), and nothing
else changes. -/
def Obligations.SetchHandsOverItsFrame : Prop :=
  ∀ (ch : Byte) (a : Word) (s : State), ch.toNat < 16 → isFinite32 a = true →
    let f := [BitVec.ofNat 8 (0x06 + 4 * ch.toNat), 0x00, 0x00, (offCount a).extractLsb' 0 8, (offCount a).extractLsb' 8 8]
    exec (.setch ch a) s = .next
      { s with
        phase := .xmit { cmd := .setch ch a, frame := f }
        rsp := none
        bus := s.bus ++ [⟨s.config.deviceAddress, s.config.busTimeout, f⟩] }

/-- R122, R125: SETCH on channel 16 or more answers INVALID_CHANNEL, whatever the angle; no frame is handed over. -/
def Obligations.SetchRejectsTheChannel : Prop :=
  ∀ (ch : Byte) (a : Word) (s : State), 16 ≤ ch.toNat →
    exec (.setch ch a) s = .next { s with rsp := some ⟨0x01, 0⟩, responses := s.responses ++ [⟨0x01, 0⟩] }

/-- R123: SETCH on a valid channel and a non-finite angle answers INVALID_ANGLE; no frame is handed over. -/
def Obligations.SetchRejectsTheAngle : Prop :=
  ∀ (ch : Byte) (a : Word) (s : State), ch.toNat < 16 → isFinite32 a = false →
    exec (.setch ch a) s = .next { s with rsp := some ⟨0x04, 0⟩, responses := s.responses ++ [⟨0x04, 0⟩] }

/-- R85, R71: SETALL on sixteen finite angles hands over one frame of 65 bytes, 0x06 and then each channel's window, and enters
XMIT; a response not yet taken is withdrawn (the model's reading, log 5), the target's registers keep their bytes so far (the
model's choice, log 23), and nothing else changes. -/
def Obligations.SetallHandsOverItsFrame : Prop :=
  ∀ (ang : Vector Word 16) (s : State), (∀ i : Fin 16, isFinite32 ang[i] = true) →
    ∃ f : Frame, f.length = 65 ∧ f[0]? = some 0x06 ∧
      (∀ i : Fin 16,
        f[4 * i.val + 1]? = some 0x00 ∧ f[4 * i.val + 2]? = some 0x00 ∧
        f[4 * i.val + 3]? = some ((offCount ang[i]).extractLsb' 0 8) ∧
        f[4 * i.val + 4]? = some ((offCount ang[i]).extractLsb' 8 8)) ∧
      exec (.setall ang) s = .next
        { s with
          phase := .xmit { cmd := .setall ang, frame := f }
          rsp := none
          bus := s.bus ++ [⟨s.config.deviceAddress, s.config.busTimeout, f⟩] }

/-- R85: SETALL with any non-finite angle answers INVALID_ANGLE; no frame is handed over. -/
def Obligations.SetallRejectsAnyBadAngle : Prop :=
  ∀ (ang : Vector Word 16) (s : State) (i : Fin 16), isFinite32 ang[i] = false →
    exec (.setall ang) s = .next { s with rsp := some ⟨0x04, 0⟩, responses := s.responses ++ [⟨0x04, 0⟩] }

/-- R86: A2OFF answers the count, zero-extended, for a finite angle and INVALID_ANGLE for any other; nothing else changes. -/
def Obligations.A2offAnswersTheCount : Prop :=
  ∀ (a : Word) (s : State),
    (isFinite32 a = true →
      exec (.a2off a) s = .next
        { s with rsp := some ⟨0x00, (offCount a).zeroExtend 32⟩,
                 responses := s.responses ++ [⟨0x00, (offCount a).zeroExtend 32⟩] }) ∧
    (isFinite32 a = false →
      exec (.a2off a) s = .next { s with rsp := some ⟨0x04, 0⟩, responses := s.responses ++ [⟨0x04, 0⟩] })

/-- R84 with R45: an accepted SETCH whose frame the transport carries leaves 00 00 lo hi in its channel's window and every other
target register as it was, and answers OK with VAL 0. -/
def Obligations.SetchProgramsItsWindow : Prop :=
  ∀ (s : State) (c : Command) (cs : List Command) (es : List Event) (ch : Byte) (a : Word),
    s.phase = .idle → s.port = c :: cs → s.events = .answer .success :: es →
    decode c = .instr (.setch ch a) → ch.toNat < 16 → isFinite32 a = true → (s.treg.read 0x00).getLsbD 5 = true →
    ∃ t u, step s = .next t ∧ step t = .next u ∧
      u.phase = .idle ∧ u.rsp = some ⟨0x00, 0⟩ ∧ u.responses = s.responses ++ [⟨0x00, 0⟩] ∧
      u.port = cs ∧ u.events = es ∧ u.config = s.config ∧ u.bus.length = s.bus.length + 1 ∧
      u.treg.read (channelBase ch.toNat) = 0x00 ∧ u.treg.read (channelBase ch.toNat + 1) = 0x00 ∧
      u.treg.read (channelBase ch.toNat + 2) = (offCount a).extractLsb' 0 8 ∧
      u.treg.read (channelBase ch.toNat + 3) = (offCount a).extractLsb' 8 8 ∧
      (∀ b, (∀ k < 4, b ≠ channelBase ch.toNat + BitVec.ofNat 8 k) → u.treg.read b = s.treg.read b)

/-- R85 with R45: an accepted SETALL whose frame the transport carries leaves 00 00 lo hi in every channel's window and every
register outside the windows as it was, and answers OK with VAL 0. -/
def Obligations.SetallProgramsEveryWindow : Prop :=
  ∀ (s : State) (c : Command) (cs : List Command) (es : List Event) (ang : Vector Word 16),
    s.phase = .idle → s.port = c :: cs → s.events = .answer .success :: es →
    decode c = .instr (.setall ang) → (∀ i : Fin 16, isFinite32 ang[i] = true) → (s.treg.read 0x00).getLsbD 5 = true →
    ∃ t u, step s = .next t ∧ step t = .next u ∧
      u.phase = .idle ∧ u.rsp = some ⟨0x00, 0⟩ ∧ u.responses = s.responses ++ [⟨0x00, 0⟩] ∧
      u.port = cs ∧ u.events = es ∧ u.config = s.config ∧ u.bus.length = s.bus.length + 1 ∧
      (∀ i : Fin 16,
        u.treg.read (channelBase i.val) = 0x00 ∧ u.treg.read (channelBase i.val + 1) = 0x00 ∧
        u.treg.read (channelBase i.val + 2) = (offCount ang[i]).extractLsb' 0 8 ∧
        u.treg.read (channelBase i.val + 3) = (offCount ang[i]).extractLsb' 8 8) ∧
      (∀ b, ¬ inWindows b → u.treg.read b = s.treg.read b)

/-- R147, R50: after a SETCH or SETALL whose frame was answered, with either answer, or aborted by a reset, the same command carried
successfully restores the windows it addresses and leaves every other register as it was before both. -/
def Obligations.ReissueRestoresTheWindow : Prop :=
  ∀ (s : State) (c : Command) (cs : List Command) (e : Event) (es : List Event),
    s.phase = .idle → s.port = c :: c :: cs → s.events = e :: .answer .success :: es →
    (e = .reset ∨ ∃ x, e = .answer x) → (s.treg.read 0x00).getLsbD 5 = true →
    (∀ (ch : Byte) (a : Word), decode c = .instr (.setch ch a) → ch.toNat < 16 → isFinite32 a = true →
      ∃ t1 t2 t3 t4, step s = .next t1 ∧ step t1 = .next t2 ∧ step t2 = .next t3 ∧ step t3 = .next t4 ∧
        t4.phase = .idle ∧ t4.rsp = some ⟨0x00, 0⟩ ∧ t4.port = cs ∧ t4.events = es ∧
        t4.treg.read (channelBase ch.toNat) = 0x00 ∧ t4.treg.read (channelBase ch.toNat + 1) = 0x00 ∧
        t4.treg.read (channelBase ch.toNat + 2) = (offCount a).extractLsb' 0 8 ∧
        t4.treg.read (channelBase ch.toNat + 3) = (offCount a).extractLsb' 8 8 ∧
        (∀ b, (∀ k < 4, b ≠ channelBase ch.toNat + BitVec.ofNat 8 k) → t4.treg.read b = s.treg.read b)) ∧
    (∀ ang : Vector Word 16, decode c = .instr (.setall ang) → (∀ i : Fin 16, isFinite32 ang[i] = true) →
      ∃ t1 t2 t3 t4, step s = .next t1 ∧ step t1 = .next t2 ∧ step t2 = .next t3 ∧ step t3 = .next t4 ∧
        t4.phase = .idle ∧ t4.rsp = some ⟨0x00, 0⟩ ∧ t4.port = cs ∧ t4.events = es ∧
        (∀ i : Fin 16,
          t4.treg.read (channelBase i.val) = 0x00 ∧ t4.treg.read (channelBase i.val + 1) = 0x00 ∧
          t4.treg.read (channelBase i.val + 2) = (offCount ang[i]).extractLsb' 0 8 ∧
          t4.treg.read (channelBase i.val + 3) = (offCount ang[i]).extractLsb' 8 8) ∧
        (∀ b, ¬ inWindows b → t4.treg.read b = s.treg.read b))

/-! ### The angle-to-count map -/

/-- R80: `S64` is the binary64 number 0x4002353F7CED9168, exactly 2.275999999999999801048033987171947956085205078125: a 53-bit
significand times 2^-51. -/
def Obligations.MapScaleIsTheBinary64Literal : Prop :=
  mapScaleBits.toNat / 2 ^ 52 = 0x400 ∧ 2 ^ 52 ≤ mapScaleSig ∧ mapScaleSig < 2 ^ 53 ∧
  mapScaleSig * 10 ^ 48 = 2275999999999999801048033987171947956085205078125 * 2 ^ 51

/-- R80, R10 `fl64`: the rounded value has a significand `m` of at most 53 bits, and of exactly 53 wherever digits were dropped
(log 11); no number with a 53-bit significand is nearer, and where another such number is equally near, `m` is even. -/
def Obligations.MapRoundsToNearest : Prop :=
  ∀ v : Int, ∃ m e : Nat, m < 2 ^ 53 ∧ (e = 0 ∨ 2 ^ 52 ≤ m) ∧ (fl64 v).natAbs = m * 2 ^ e ∧
    ∀ (z : Int) (m' e' : Nat), m' < 2 ^ 53 → z.natAbs = m' * 2 ^ e' →
      (fl64 v - v).natAbs ≤ (z - v).natAbs ∧
      ((fl64 v - v).natAbs = (z - v).natAbs → z ≠ fl64 v → m % 2 = 0)

/-- Counts of 95_test_vectors.md (V-A2OFF-1, 2, 8, 13, 15, 19, 20, 24, 28, 30): the source's example, the sign of zero, the vector
that tells binary64 from binary32, the truncation below zero, both ends of the domain, the largest and the smallest angle. -/
def Obligations.CountsOfTheSpecVectors : Prop :=
  offCount 0x00000000 = 102 ∧ offCount 0x80000000 = 102 ∧ offCount 0x42B40000 = 307 ∧ offCount 0x43BB8000 = 955 ∧
  offCount 0xBE99999A = 102 ∧ offCount 0xC235E5E7 = 0 ∧ offCount 0xC235E5E8 = 65535 ∧ offCount 0x44DB53A1 = 4096 ∧
  offCount 0x7F7FFFFF = 102 ∧ offCount 0x00000001 = 102

/-- The map is monotone before it wraps: a larger finite angle gives at least as many ticks (from R80, R81). -/
def Obligations.TicksAreMonotone : Prop :=
  ∀ a b : Word, isFinite32 a = true → isFinite32 b = true → value32 a ≤ value32 b → mapTicks a ≤ mapTicks b

/-- R83, read on the count before it wraps (log 14): it lies in [0, 4095] exactly for angles in the domain. -/
def Obligations.CountIsMeaningfulExactlyInTheDomain : Prop :=
  ∀ a : Word, isFinite32 a = true →
    ((0 ≤ mapTicks a + 102 ∧ mapTicks a + 102 ≤ 4095) ↔
      (value32 0xC235E5E7 ≤ value32 a ∧ value32 a ≤ value32 0x44DB53A0))

/-- R148: if all four limits lie in the domain, the angle that CLAMPT or CLAMPS answers for any finite angle is one for which SETCH,
on any channel, hands over a count in [0, 4095], low byte first. -/
def Obligations.ClampedAnglesSendMeaningfulCounts : Prop :=
  ∀ (s : State) (a : Word) (ch : Byte) (i : Instr),
    limitsInDomain s.config.limits → isFinite32 a = true → ch.toNat < 16 → (i = .clampt a ∨ i = .clamps a) →
    ∃ t u v lo hi, exec i s = .next t ∧ t.rsp = some ⟨0x00, v⟩ ∧ exec (.setch ch v) t = .next u ∧
      u.bus = t.bus ++ [⟨s.config.deviceAddress, s.config.busTimeout, [channelBase ch.toNat, 0, 0, lo, hi]⟩] ∧
      lo.toNat + 256 * hi.toNat ≤ 4095

/-! ### The angle pipeline -/

/-- R102: MIRROR answers fl32(180 - a) for a finite angle and INVALID_ANGLE for any other; nothing else changes. -/
def Obligations.MirrorAnswers : Prop :=
  ∀ (a : Word) (s : State),
    (isFinite32 a = true →
      exec (.mirror a) s = .next
        { s with rsp := some ⟨0x00, sub32 0x43340000 a⟩, responses := s.responses ++ [⟨0x00, sub32 0x43340000 a⟩] }) ∧
    (isFinite32 a = false →
      exec (.mirror a) s = .next { s with rsp := some ⟨0x04, 0⟩, responses := s.responses ++ [⟨0x04, 0⟩] })

/-- R103: OFFSET answers fl32(a + d) when both operands and the sum are finite, and INVALID_ANGLE otherwise; nothing else
changes. -/
def Obligations.OffsetAnswers : Prop :=
  ∀ (a d : Word) (s : State),
    (isFinite32 a = true → isFinite32 d = true → isFinite32 (add32 a d) = true →
      exec (.offset a d) s = .next
        { s with rsp := some ⟨0x00, add32 a d⟩, responses := s.responses ++ [⟨0x00, add32 a d⟩] }) ∧
    (isFinite32 a = false ∨ isFinite32 d = false ∨ isFinite32 (add32 a d) = false →
      exec (.offset a d) s = .next { s with rsp := some ⟨0x04, 0⟩, responses := s.responses ++ [⟨0x04, 0⟩] })

/-- R104, R105: CLAMPT and CLAMPS answer a finite angle below the class's minimum with the minimum, above its maximum with
the maximum, and any other finite angle with itself, and INVALID_ANGLE for a non-finite one; nothing else changes. -/
def Obligations.ClampsAnswer : Prop :=
  ∀ (a : Word) (s : State),
    let saturate := fun lo hi : Word =>
      if value32 a < value32 lo then lo else if value32 hi < value32 a then hi else a
    let t := saturate s.config.limits.minT s.config.limits.maxT
    let h := saturate s.config.limits.minS s.config.limits.maxS
    (isFinite32 a = true →
      exec (.clampt a) s = .next { s with rsp := some ⟨0x00, t⟩, responses := s.responses ++ [⟨0x00, t⟩] } ∧
      exec (.clamps a) s = .next { s with rsp := some ⟨0x00, h⟩, responses := s.responses ++ [⟨0x00, h⟩] }) ∧
    (isFinite32 a = false →
      exec (.clampt a) s = .next { s with rsp := some ⟨0x04, 0⟩, responses := s.responses ++ [⟨0x04, 0⟩] } ∧
      exec (.clamps a) s = .next { s with rsp := some ⟨0x04, 0⟩, responses := s.responses ++ [⟨0x04, 0⟩] })

/-- R106: COND mirrors when MIR is 1, adds the offset, clamps to its class, and answers OK; non-finite operands and an
overflowing sum answer INVALID_ANGLE; nothing else changes. -/
def Obligations.CondAnswers : Prop :=
  ∀ (mir : Bool) (cls : JointClass) (a d : Word) (s : State),
    let m := if mir then sub32 0x43340000 a else a
    let o := add32 m d
    let r := match cls with
      | .thigh => clampAngle o s.config.limits.minT s.config.limits.maxT
      | .shank => clampAngle o s.config.limits.minS s.config.limits.maxS
    (isFinite32 a = true → isFinite32 d = true → isFinite32 o = true →
      exec (.cond mir cls a d) s = .next
        { s with rsp := some ⟨0x00, r⟩, responses := s.responses ++ [⟨0x00, r⟩] }) ∧
    (isFinite32 a = false ∨ isFinite32 d = false ∨ isFinite32 o = false →
      exec (.cond mir cls a d) s = .next { s with rsp := some ⟨0x04, 0⟩, responses := s.responses ++ [⟨0x04, 0⟩] })

/-- R106, the equivalence: COND answers exactly what the host sequence MIRROR (if MIR is 1), OFFSET, CLAMPT or CLAMPS answers, each
fed the previous VAL. -/
def Obligations.CondEqualsTheSequence : Prop :=
  ∀ (mir : Bool) (cls : JointClass) (a d : Word) (s : State),
    answerOf (.cond mir cls a d) s =
      thenOk (if mir then answerOf (.mirror a) s else some ⟨0x00, a⟩) fun m =>
        thenOk (answerOf (.offset m d) s) fun o =>
          answerOf (match cls with | .thigh => .clampt o | .shank => .clamps o) s

/-- R100, R10 `fl32`: a finite sum is at least as near to the exact sum as any finite binary32 number, and of two equally near
ones it is the one with an even significand. -/
def Obligations.SumsRoundToNearestEven : Prop :=
  ∀ x y z : Word, isFinite32 x = true → isFinite32 y = true → isFinite32 z = true → isFinite32 (add32 x y) = true →
    let exact := value32 x + value32 y
    (value32 (add32 x y) - exact).natAbs ≤ (value32 z - exact).natAbs ∧
    ((value32 (add32 x y) - exact).natAbs = (value32 z - exact).natAbs → value32 z ≠ value32 (add32 x y) →
      (add32 x y).toNat % 2 = 0)

/-- R100: the sign of a zero sum: -0 when both operands are -0, +0 otherwise. -/
def Obligations.ZeroSumsTakeTheIeeeSign : Prop :=
  ∀ x y : Word, isFinite32 x = true → isFinite32 y = true → value32 x + value32 y = 0 →
    add32 x y = if x = 0x80000000 ∧ y = 0x80000000 then 0x80000000 else 0x00000000

/-- R103: a sum of finite operands overflows exactly when its exact magnitude is at least 2^128 - 2^103 (in units of 2^-149). -/
def Obligations.OverflowThreshold : Prop :=
  ∀ x y : Word, isFinite32 x = true → isFinite32 y = true →
    (isFinite32 (add32 x y) = false ↔ (2 ^ 128 - 2 ^ 103) * 2 ^ 149 ≤ (value32 x + value32 y).natAbs)

/-- R102: MIRROR of a finite angle is finite. -/
def Obligations.MirrorStaysFinite : Prop :=
  ∀ a : Word, isFinite32 a = true → isFinite32 (mirrorAngle a) = true

/-- R101: a pipeline command that answers OK answers a finite angle. -/
def Obligations.AnsweredAnglesAreFinite : Prop :=
  ∀ (i : Instr) (s t : State) (v : Word), returnsAngle i = true → exec i s = .next t → t.rsp = some ⟨0x00, v⟩ →
    isFinite32 v = true

/-- R108: within well-formed limits the clamp of a finite angle lies in range, saturates at each end, is idempotent, and is
monotone, in each class. -/
def Obligations.ClampLaws : Prop :=
  ∀ (l : Limits) (cls : JointClass) (lo hi : Word), l.wellFormed = true →
    (match cls with | .thigh => lo = l.minT ∧ hi = l.maxT | .shank => lo = l.minS ∧ hi = l.maxS) →
    ∀ a, isFinite32 a = true →
      (value32 lo ≤ value32 (clampClass l cls a) ∧ value32 (clampClass l cls a) ≤ value32 hi) ∧
      (value32 hi ≤ value32 a → value32 (clampClass l cls a) = value32 hi) ∧
      (value32 a ≤ value32 lo → value32 (clampClass l cls a) = value32 lo) ∧
      clampClass l cls (clampClass l cls a) = clampClass l cls a ∧
      (∀ b, isFinite32 b = true → value32 a ≤ value32 b →
        value32 (clampClass l cls a) ≤ value32 (clampClass l cls b))

/-- R107: where 180 - a is exact, MIRROR twice gives the angle back bit for bit, except that a zero comes back as +0. -/
def Obligations.MirrorTwiceWhereExact : Prop :=
  ∀ a : Word, isFinite32 a = true → value32 (mirrorAngle a) = value32 0x43340000 - value32 a →
    mirrorAngle (mirrorAngle a) = if value32 a = 0 then 0x00000000 else a

/-- R107: 180 - a is exact for every binary32 angle in [90, 360] and for every multiple of 2^-16 strictly between -76 and 436. -/
def Obligations.MirrorIsExactOnItsRanges : Prop :=
  ∀ a : Word, isFinite32 a = true →
    (90 * 2 ^ 149 ≤ value32 a ∧ value32 a ≤ 360 * 2 ^ 149) ∨
    (value32 a % 2 ^ 133 = 0 ∧ -76 * 2 ^ 149 < value32 a ∧ value32 a < 436 * 2 ^ 149) →
    value32 (mirrorAngle a) = value32 0x43340000 - value32 a

/-- R107, C4, R149: MIRROR twice is not the identity on binary32: the vectors V-MIRROR-21 and V-MIRROR-24. -/
def Obligations.MirrorTwiceFailsInGeneral : Prop :=
  mirrorAngle (mirrorAngle 0x3DCCCCCD) = 0x3DCCD000 ∧ mirrorAngle (mirrorAngle 0x2EDBE6FF) = 0x00000000

/-! ### The whole machine -/

/-- R109: a pure command changes nothing but the response, and its answer depends on its operands and the configuration alone. -/
def Obligations.PureCommandsOnlyAnswer : Prop :=
  ∀ (i : Instr), isPure i = true →
    (∀ s t : State, exec i s = .next t →
      ∃ r, t = { s with rsp := some r, responses := s.responses ++ [r] }) ∧
    (∀ s s' : State, s.config = s'.config → answerOf i s = answerOf i s')

/-- R87: the frame that a SETCH or SETALL step hands over carries, in each addressed channel's window, ON bytes 00 00 and the bytes of
OFFCOUNT of that channel's angle, which is finite. -/
def Obligations.FrameContentLaw : Prop :=
  (∀ (ch : Byte) (a : Word) (f : Frame), frameOf (.setch ch a) = some f →
    ch.toNat < 16 ∧ isFinite32 a = true ∧
    f = [channelBase ch.toNat, 0x00, 0x00, (offCount a).extractLsb' 0 8, (offCount a).extractLsb' 8 8]) ∧
  (∀ (ang : Vector Word 16) (f : Frame), frameOf (.setall ang) = some f →
    f[0]? = some 0x06 ∧ ∀ i : Fin 16, isFinite32 ang[i] = true ∧
      f[4 * i.val + 1]? = some 0x00 ∧ f[4 * i.val + 2]? = some 0x00 ∧
      f[4 * i.val + 3]? = some ((offCount ang[i]).extractLsb' 0 8) ∧
      f[4 * i.val + 4]? = some ((offCount ang[i]).extractLsb' 8 8)) ∧
  (∀ (i : Instr) (s t : State), exec i s = .next t →
    t.bus = s.bus ∨ ∃ f, frameOf i = some f ∧ t.bus = s.bus ++ [⟨s.config.deviceAddress, s.config.busTimeout, f⟩])

/-- R26: no step changes the configuration. -/
def Obligations.ConfigurationNeverChanges : Prop :=
  ∀ s t : State, step s = .next t → t.config = s.config

/-- R44, R131: from every state that meets the invariant, a step changes no target register outside the channel windows, unless the
step is another agent's write of that register. -/
def Obligations.OnlyTheWindowsAreWritten : Prop :=
  ∀ (s t : State) (b : Byte), s.Inv → step s = .next t → ¬ inWindows b →
    t.treg.read b = s.treg.read b ∨ ∃ d es, s.events = .busWrite b d :: es

/-- The invariant holds after reset. -/
def Obligations.ResetMeetsTheInvariant : Prop :=
  State.reset.Inv

/-- Every step keeps the invariant: the registers stay in canonical form, no response stands while a frame is in flight, the held
frame is its command's and the last one handed over, and every response and every frame is a legal one. -/
def Obligations.StepKeepsTheInvariant : Prop :=
  ∀ s t : State, s.Inv → step s = .next t → t.Inv
end

