-- ==== Sys2Proof/Laws/Decode.lean ====
section
/-! SUPPORT. The laws of the command word: its fields as numbers, the fields of an encoded word, and when a row of the opcode map selects a word. -/

namespace Sys2Proof

theorem toNat_append_add {m n : Nat} (x : BitVec m) (y : BitVec n) : (x ++ y).toNat = x.toNat * 2 ^ n + y.toNat := by
  rw [BitVec.toNat_append, ← Nat.shiftLeft_add_eq_or_of_lt y.isLt, Nat.shiftLeft_eq]

theorem toNat_slice (w : Word) (start len : Nat) : (w.extractLsb' start len).toNat = w.toNat / 2 ^ start % 2 ^ len := by
  simp [BitVec.extractLsb'_toNat, Nat.shiftRight_eq_div_pow]

/-- CLS as a number (30_encoding.md R63). -/
def clsNat : JointClass → Nat
  | .thigh => 0
  | .shank => 1

/-- An encoded word as the sum of its fields (30_encoding.md R60). -/
theorem toNat_commandWord (op ch : Byte) (mir : Bool) (cls : JointClass) :
    (commandWord op ch mir cls).toNat =
      op.toNat + 2 ^ 8 * ch.toNat + 2 ^ 16 * mir.toNat + 2 ^ 17 * clsNat cls := by
  unfold commandWord
  simp only [toNat_append_add, BitVec.toNat_ofBool, BitVec.toNat_ofNat]
  cases mir <;> cases cls <;> simp [clsNat] <;> omega

@[simp] theorem opField_commandWord (op ch : Byte) (mir : Bool) (cls : JointClass) :
    opField (commandWord op ch mir cls) = op := by
  apply BitVec.eq_of_toNat_eq
  unfold opField
  rw [toNat_slice, toNat_commandWord]
  have := op.isLt
  omega

@[simp] theorem chField_commandWord (op ch : Byte) (mir : Bool) (cls : JointClass) :
    chField (commandWord op ch mir cls) = ch := by
  apply BitVec.eq_of_toNat_eq
  unfold chField
  rw [toNat_slice, toNat_commandWord]
  have := op.isLt
  have := ch.isLt
  omega

theorem getLsbD_eq (w : Word) (n : Nat) : w.getLsbD n = decide (w.toNat / 2 ^ n % 2 = 1) := by
  rw [← BitVec.testBit_toNat, Nat.testBit_eq_decide_div_mod_eq]

@[simp] theorem mirField_commandWord (op ch : Byte) (mir : Bool) (cls : JointClass) :
    mirField (commandWord op ch mir cls) = mir := by
  have := op.isLt
  have := ch.isLt
  unfold mirField
  rw [getLsbD_eq, toNat_commandWord]
  cases mir <;> cases cls <;> simp [clsNat] <;> omega

@[simp] theorem clsField_commandWord (op ch : Byte) (mir : Bool) (cls : JointClass) :
    clsField (commandWord op ch mir cls) = cls := by
  have := op.isLt
  have := ch.isLt
  unfold clsField
  rw [getLsbD_eq, toNat_commandWord]
  cases mir <;> cases cls <;> simp [clsNat] <;> omega

/-- The bits above OP of a word whose other fields are zero are zero. -/
@[simp] theorem above8_commandWord (op : Byte) : (commandWord op 0#8 false .thigh).extractLsb' 8 24 = 0#24 := by
  apply BitVec.eq_of_toNat_eq
  rw [toNat_slice, toNat_commandWord]
  have := op.isLt
  simp [clsNat]
  omega

/-- The bits above CH of a word with MIR and CLS zero are zero. -/
@[simp] theorem above16_commandWord (op ch : Byte) : (commandWord op ch false .thigh).extractLsb' 16 16 = 0#16 := by
  apply BitVec.eq_of_toNat_eq
  rw [toNat_slice, toNat_commandWord]
  have := op.isLt
  have := ch.isLt
  simp [clsNat]
  omega

/-- RSV of an encoded word is zero. -/
@[simp] theorem rsv_commandWord (op ch : Byte) (mir : Bool) (cls : JointClass) :
    (commandWord op ch mir cls).extractLsb' 18 14 = 0#14 := by
  apply BitVec.eq_of_toNat_eq
  rw [toNat_slice, toNat_commandWord]
  have := op.isLt
  have := ch.isLt
  cases mir <;> cases cls <;> simp [clsNat] <;> omega

/-- A word is its fields side by side. -/
theorem word_split (w : Word) : w = w.extractLsb' 18 14 ++ (w.extractLsb' 16 2 ++ (chField w ++ opField w)) := by
  apply BitVec.eq_of_toNat_eq
  simp only [toNat_append_add, chField, opField, toNat_slice]
  have := w.isLt
  omega

theorem append_eq_append {m n : Nat} {x x' : BitVec m} {y y' : BitVec n} : x ++ y = x' ++ y' ↔ x = x' ∧ y = y' := by
  constructor
  · intro h
    have h := congrArg BitVec.toNat h
    rw [toNat_append_add, toNat_append_add] at h
    have hy := y.isLt
    have hy' := y'.isLt
    have hx : x.toNat = x'.toNat := by
      have := congrArg (· / 2 ^ n) h
      simpa [Nat.add_comm, Nat.add_mul_div_right _ _ (Nat.two_pow_pos n), Nat.div_eq_of_lt, hy, hy'] using this
    rw [hx] at h
    exact ⟨BitVec.eq_of_toNat_eq hx, BitVec.eq_of_toNat_eq (by omega)⟩
  · rintro ⟨rfl, rfl⟩
    rfl

theorem append_and_eq_iff (x a a' : BitVec 14) (y b b' : BitVec 2) (z c c' o d d' : Byte) :
    (x ++ (y ++ (z ++ o))) &&& (a ++ (b ++ (c ++ d))) = a' ++ (b' ++ (c' ++ d')) ↔
      x &&& a = a' ∧ y &&& b = b' ∧ z &&& c = c' ∧ o &&& d = d' := by
  simp only [BitVec.and_append, append_eq_append]

/-- `(w AND mask) = match` (30_encoding.md R65), field by field: RSV, then CLS and MIR, then CH, then OP. -/
theorem and_eq_iff_fields (w : Word) (a a' : BitVec 14) (b b' : BitVec 2) (c c' d d' : Byte) :
    w &&& (a ++ (b ++ (c ++ d))) = a' ++ (b' ++ (c' ++ d')) ↔
      w.extractLsb' 18 14 &&& a = a' ∧ w.extractLsb' 16 2 &&& b = b' ∧ chField w &&& c = c' ∧ opField w &&& d = d' := by
  have h := word_split w
  generalize w.extractLsb' 18 14 = x at *
  generalize w.extractLsb' 16 2 = y at *
  generalize chField w = z at *
  generalize opField w = o at *
  subst h
  exact append_and_eq_iff x a a' y b b' z c c' o d d'

end Sys2Proof
end

