-- ==== Sys2Proof/Laws/Memory.lean ====
section
/-! SUPPORT. The laws of the target's registers: read after write, the canonical form, and everything a frame's data bytes can change. -/

namespace Sys2Proof.Machine

theorem lookup_put_self (m : Memory) (a : Nat) (v : Byte) : (m.put a v).lookup a = some v := by
  induction m with
  | nil => simp [Memory.put, Memory.lookup]
  | cons c m ih =>
    obtain ⟨b, w⟩ := c
    unfold Memory.put
    split
    · simp [Memory.lookup]
    · split
      · simp [Memory.lookup]
      · rename_i _ hne
        simp [Memory.lookup, ih, Ne.symm hne]

theorem lookup_put_other (m : Memory) {a b : Nat} (v : Byte) (h : b ≠ a) :
    (m.put a v).lookup b = m.lookup b := by
  induction m with
  | nil => simp [Memory.put, Memory.lookup, Ne.symm h]
  | cons c m ih =>
    obtain ⟨e, w⟩ := c
    unfold Memory.put
    split
    · simp [Memory.lookup, Ne.symm h]
    · split
      · rename_i _ he
        subst he
        simp [Memory.lookup, Ne.symm h]
      · simp [Memory.lookup, ih]

@[simp] theorem read_write_self (m : Memory) (a v : Byte) : (m.write a v).read a = v := by
  simp [Memory.read, Memory.write, lookup_put_self]

theorem read_write_other (m : Memory) {a b : Byte} (v : Byte) (h : b ≠ a) :
    (m.write a v).read b = m.read b := by
  have : b.toNat ≠ a.toNat := fun e => h (BitVec.eq_of_toNat_eq e)
  simp [Memory.read, Memory.write, lookup_put_other m v this]

theorem mem_put {m : Memory} {a : Nat} {v : Byte} {c : Host.Cell} (h : c ∈ m.put a v) :
    c = (a, v) ∨ c ∈ m := by
  induction m with
  | nil => simpa [Memory.put] using h
  | cons e m ih =>
    obtain ⟨b, w⟩ := e
    unfold Memory.put at h
    split at h
    · simpa using h
    · split at h
      · rcases List.mem_cons.1 h with h | h
        · exact .inl h
        · exact .inr (List.mem_cons_of_mem _ h)
      · rcases List.mem_cons.1 h with h | h
        · exact .inr (by simp [h])
        · exact (ih h).imp id (List.mem_cons_of_mem _)

theorem put_sorted (m : Memory) (a : Nat) (v : Byte) (h : m.Pairwise (fun x y => x.1 < y.1)) :
    (m.put a v).Pairwise (fun x y => x.1 < y.1) := by
  induction m with
  | nil => simp [Memory.put]
  | cons e m ih =>
    obtain ⟨b, w⟩ := e
    obtain ⟨hb, hm⟩ := List.pairwise_cons.1 h
    unfold Memory.put
    split
    · rename_i hab
      refine List.pairwise_cons.2 ⟨fun c hc => ?_, h⟩
      rcases List.mem_cons.1 hc with rfl | hc
      · exact hab
      · exact Nat.lt_trans hab (hb c hc)
    · split
      · rename_i _ hab
        subst hab
        exact List.pairwise_cons.2 ⟨hb, hm⟩
      · rename_i h1 h2
        refine List.pairwise_cons.2 ⟨fun c hc => ?_, ih hm⟩
        rcases mem_put hc with rfl | hc
        · simp only; omega
        · exact hb c hc

/-- Writing a register keeps the canonical form. -/
theorem write_wf {m : Memory} (h : m.wf) (a v : Byte) : (m.write a v).wf := by
  refine ⟨put_sorted m _ _ h.1, fun c hc => ?_⟩
  rcases mem_put hc with rfl | hc
  · exact a.isLt
  · exact h.2 c hc

/-- A frame's data bytes keep the canonical form, however they land. -/
theorem landData_wf {m : Memory} (h : m.wf) (landed : Bool) (foreign : List Byte) (k : Nat) (a : Byte)
    (ds : List Byte) : (landData landed foreign k a ds m).wf := by
  induction ds generalizing m k a with
  | nil => exact h
  | cons d ds ih => exact ih (write_wf h _ _) _ _

theorem landFrame_wf {m : Memory} (h : m.wf) (landed : Bool) (foreign : List Byte) (k : Nat) (f : Frame) :
    (landFrame landed foreign k f m).wf := by
  cases f with
  | nil => exact h
  | cons a ds => exact landData_wf h _ _ _ _ _

/-- A register the data bytes do not address keeps its byte (20_memory.md R45 to R47). -/
theorem read_landData_other (landed : Bool) (foreign : List Byte) (k : Nat) (a : Byte) (ds : List Byte)
    (m : Memory) {b : Byte} (h : b ∉ addressRun a ds.length) :
    (landData landed foreign k a ds m).read b = m.read b := by
  induction ds generalizing m k a with
  | nil => rfl
  | cons d ds ih =>
    simp only [List.length_cons, addressRun, List.mem_cons, not_or] at h
    rw [landData, ih _ _ _ h.2, read_write_other _ _ h.1]

theorem read_landFrame_other (landed : Bool) (foreign : List Byte) (k : Nat) (f : Frame) (m : Memory) {b : Byte}
    (h : b ∉ addressed f) : (landFrame landed foreign k f m).read b = m.read b := by
  cases f with
  | nil => rfl
  | cons a ds => exact read_landData_other _ _ _ _ _ _ h

theorem addressRun_length (a : Byte) (n : Nat) : (addressRun a n).length = n := by
  induction n generalizing a with
  | zero => rfl
  | succ n ih => simp [addressRun, ih]

theorem add_succ_ofNat (a : Byte) (k : Nat) : a + BitVec.ofNat 8 (k + 1) = a + 1 + BitVec.ofNat 8 k := by
  apply BitVec.eq_of_toNat_eq
  simp [BitVec.toNat_add]
  omega

/-- The registers of a run are `a`, `a + 1`, …, modulo 2^8. -/
theorem mem_addressRun {a b : Byte} {n : Nat} : b ∈ addressRun a n ↔ ∃ k < n, b = a + BitVec.ofNat 8 k := by
  induction n generalizing a with
  | zero => simp [addressRun]
  | succ n ih =>
    simp only [addressRun, List.mem_cons, ih]
    constructor
    · rintro (rfl | ⟨k, hk, rfl⟩)
      · exact ⟨0, by omega, by simp⟩
      · refine ⟨k + 1, by omega, ?_⟩
        rw [add_succ_ofNat]
    · rintro ⟨k, hk, rfl⟩
      cases k with
      | zero => exact .inl (by simp)
      | succ k =>
        refine .inr ⟨k, by omega, ?_⟩
        rw [add_succ_ofNat]

/-- What register `a + i` of a run of data bytes ends with, as long as the run does not wrap onto itself: data byte `i` if the
frame landed and no other agent wrote that register, the `i`-th free byte otherwise (20_memory.md R45 to R47). -/
theorem read_landData (landed : Bool) (foreign : List Byte) (k : Nat) (a : Byte) (ds : List Byte) (m : Memory)
    (hlen : ds.length ≤ 256) (i : Nat) (hi : i < ds.length) :
    (landData landed foreign k a ds m).read (a + BitVec.ofNat 8 i) =
      if landed = true ∧ a + BitVec.ofNat 8 i ∉ foreign then ds[i] else Config.freeByte (k + i) := by
  induction ds generalizing m k a i with
  | nil => simp at hi
  | cons d ds ih =>
    simp only [List.length_cons] at hlen hi
    cases i with
    | zero =>
      have hb : a + BitVec.ofNat 8 0 ∉ addressRun (a + 1) ds.length := by
        rw [mem_addressRun]
        rintro ⟨j, hj, e⟩
        have := congrArg BitVec.toNat e
        simp [BitVec.toNat_add] at this
        have ha := a.isLt
        omega
      rw [landData, read_landData_other _ _ _ _ _ _ hb]
      simp
    | succ i =>
      rw [landData, add_succ_ofNat, ih _ _ _ (by omega) i (by omega)]
      simp [Nat.add_assoc, Nat.add_comm 1]

/-- AUTOINC is bit 5 of `TREG[0x00]` (10_state.md R31). -/
theorem autoInc_eq (m : Memory) : autoInc m = (m.read 0x00).getLsbD 5 := by
  have h : ∀ b : Byte, (b &&& mode1AutoInc != 0) = b.getLsbD 5 := by decide +kernel
  exact h _

/-- A frame lands exactly on SUCCESS with bit 5 of `TREG[0x00]` 1 (20_memory.md R45). -/
theorem frameLanded_iff (x : Status) (m : Memory) :
    frameLanded x m = true ↔ x = .success ∧ (m.read 0x00).getLsbD 5 = true := by
  simp [frameLanded, autoInc_eq]

/-- Everything a frame in flight does to a register it addresses (20_memory.md R45 to R47, 70_reset_and_hazards.md R145). -/
theorem read_landFrame (landed : Bool) (foreign : List Byte) (k : Nat) (a : Byte) (ds : List Byte) (m : Memory)
    (hlen : ds.length ≤ 256) (i : Nat) (hi : i < ds.length) :
    (landFrame landed foreign k (a :: ds) m).read (a + BitVec.ofNat 8 i) =
      if landed = true ∧ a + BitVec.ofNat 8 i ∉ foreign then ds[i] else Config.freeByte (k + i) :=
  read_landData landed foreign k a ds m hlen i hi

end Sys2Proof.Machine
end

