-- ==== Sys2Proof/Laws/Numeric.lean ====
section
/-! SUPPORT. The laws of rounding: exactness, monotonicity, nearness, and how binary32 encodings and magnitudes correspond. -/

namespace Sys2Proof.Machine

/-! ### Binary length -/

theorem lt_two_pow_bitLen (n : Nat) : n < 2 ^ bitLen n := by
  unfold bitLen
  split
  · subst n; simp
  · exact Nat.lt_log2_self

theorem two_pow_le_of_bitLen {n k : Nat} (h : bitLen n = k + 1) : 2 ^ k ≤ n := by
  unfold bitLen at h
  split at h
  · simp at h
  · rename_i hn
    have : n.log2 = k := by omega
    exact this ▸ Nat.log2_self_le hn

theorem bitLen_le {n k : Nat} (h : n < 2 ^ k) : bitLen n ≤ k := by
  unfold bitLen
  split
  · omega
  · rename_i hn
    exact (Nat.log2_lt hn).2 h

theorem bitLen_eq {n k : Nat} (h : 2 ^ k ≤ n) (h' : n < 2 ^ (k + 1)) : bitLen n = k + 1 := by
  have hn : n ≠ 0 := by have := Nat.two_pow_pos k; omega
  have h1 := bitLen_le h'
  have h2 : k ≤ n.log2 := (Nat.le_log2 hn).2 h
  unfold bitLen at *
  rw [if_neg hn] at *
  omega

theorem bitLen_mono {n m : Nat} (h : n ≤ m) : bitLen n ≤ bitLen m :=
  bitLen_le (Nat.lt_of_le_of_lt h (lt_two_pow_bitLen m))

/-! ### Rounding a quotient -/

theorem roundQuot_lower (n sh : Nat) : n / 2 ^ sh ≤ roundQuot n sh := by
  unfold roundQuot; dsimp only; split <;> omega

theorem roundQuot_upper (n sh : Nat) : roundQuot n sh ≤ n / 2 ^ sh + 1 := by
  unfold roundQuot; dsimp only; split <;> omega

/-- A multiple of the unit is not rounded. -/
theorem roundQuot_mul (q sh : Nat) : roundQuot (q * 2 ^ sh) sh = q := by
  have h := Nat.two_pow_pos sh
  simp [roundQuot]

@[simp] theorem roundQuot_zero (n : Nat) : roundQuot n 0 = n := by
  simpa using roundQuot_mul n 0

/-- The rounded quotient is within half a unit. -/
theorem roundQuot_near (n sh : Nat) :
    2 * (roundQuot n sh * 2 ^ sh) ≤ 2 * n + 2 ^ sh ∧ 2 * n ≤ 2 * (roundQuot n sh * 2 ^ sh) + 2 ^ sh := by
  have h := Nat.div_add_mod n (2 ^ sh)
  have hr := Nat.mod_lt n (Nat.two_pow_pos sh)
  rw [Nat.mul_comm] at h
  unfold roundQuot
  dsimp only
  split
  · constructor <;> omega
  · rw [Nat.add_mul]
    constructor <;> omega

/-- Half-way between two units, the even one is taken (00_scope.md R10). -/
theorem roundQuot_even {n sh : Nat}
    (h : 2 * (roundQuot n sh * 2 ^ sh) = 2 * n + 2 ^ sh ∨ 2 * n = 2 * (roundQuot n sh * 2 ^ sh) + 2 ^ sh) :
    roundQuot n sh % 2 = 0 := by
  have hd := Nat.div_add_mod n (2 ^ sh)
  have hr := Nat.mod_lt n (Nat.two_pow_pos sh)
  rw [Nat.mul_comm] at hd
  unfold roundQuot at *
  dsimp only at *
  split at h
  · rename_i hc
    rw [if_pos hc]
    omega
  · rename_i hc
    rw [if_neg hc]
    rw [Nat.add_mul] at h
    omega

theorem roundQuot_mono {n m : Nat} (sh : Nat) (h : n ≤ m) : roundQuot n sh ≤ roundQuot m sh := by
  have hd : n / 2 ^ sh ≤ m / 2 ^ sh := Nat.div_le_div_right h
  rcases Nat.lt_or_eq_of_le hd with hd | hd
  · exact Nat.le_trans (roundQuot_upper n sh) (Nat.le_trans hd (roundQuot_lower m sh))
  · have h1 := Nat.div_add_mod n (2 ^ sh)
    have h2 := Nat.div_add_mod m (2 ^ sh)
    rw [hd] at h1
    have hm : n % 2 ^ sh ≤ m % 2 ^ sh := by omega
    unfold roundQuot
    dsimp only
    rw [hd]
    split <;> split <;> omega

/-- The rounded quotient of a number with more than `p` digits has its top digit where the number has it, or is the next
power of two. -/
theorem roundQuot_range {p n : Nat} (hp : 0 < p) (h : p ≤ bitLen n) :
    2 ^ (p - 1) ≤ roundQuot n (excess p n) ∧ roundQuot n (excess p n) ≤ 2 ^ p := by
  obtain ⟨k, hk⟩ : ∃ k, bitLen n = k + 1 := ⟨bitLen n - 1, by omega⟩
  have hlo := two_pow_le_of_bitLen hk
  have hhi := lt_two_pow_bitLen n
  have he : excess p n = k + 1 - p := by unfold excess; omega
  have e1 : 2 ^ k = 2 ^ (p - 1) * 2 ^ excess p n := by rw [← Nat.pow_add]; congr 1; omega
  have e2 : 2 ^ bitLen n = 2 ^ p * 2 ^ excess p n := by rw [← Nat.pow_add]; congr 1; omega
  constructor
  · rw [← roundQuot_mul (2 ^ (p - 1)) (excess p n), ← e1]
    exact roundQuot_mono _ hlo
  · rw [← roundQuot_mul (2 ^ p) (excess p n), ← e2]
    exact roundQuot_mono _ (Nat.le_of_lt hhi)

theorem excess_of_lt {p n : Nat} (h : n < 2 ^ p) : excess p n = 0 := by
  have := bitLen_le h
  unfold excess; omega

/-! ### Rounding to significant digits -/

/-- A number that fits is not rounded. -/
theorem roundSig_of_lt {p n : Nat} (h : n < 2 ^ p) : roundSig p n = n := by
  simp [roundSig, excess_of_lt h]

/-- A significand of at most `p` digits times a power of two is not rounded. -/
theorem roundSig_mul {p m e : Nat} (hm : m < 2 ^ p) : roundSig p (m * 2 ^ e) = m * 2 ^ e := by
  have hlt : m * 2 ^ e < 2 ^ (p + e) := by
    rw [Nat.pow_add]
    exact Nat.mul_lt_mul_of_pos_right hm (Nat.two_pow_pos e)
  have hx : excess p (m * 2 ^ e) ≤ e := by
    have := bitLen_le hlt
    unfold excess; omega
  unfold roundSig
  generalize excess p (m * 2 ^ e) = sh at hx
  have e1 : m * 2 ^ e = m * 2 ^ (e - sh) * 2 ^ sh := by
    rw [Nat.mul_assoc, ← Nat.pow_add, Nat.sub_add_cancel hx]
  rw [e1, roundQuot_mul]

theorem roundSig_near (p n : Nat) :
    2 * roundSig p n ≤ 2 * n + 2 ^ excess p n ∧ 2 * n ≤ 2 * roundSig p n + 2 ^ excess p n :=
  roundQuot_near n (excess p n)

/-- Everything rounding to `p` significant digits does: no number `m * 2^e` with `m < 2^p` is nearer, and where another one is
equally near, digits were dropped and the rounded significand is even (00_scope.md R10). -/
theorem roundSig_nearest {p n m e : Nat} (hp : 0 < p) (hm : m < 2 ^ p) :
    ((roundSig p n : Int) - n).natAbs ≤ ((m * 2 ^ e : Nat) - (n : Int)).natAbs ∧
    (((roundSig p n : Int) - n).natAbs = ((m * 2 ^ e : Nat) - (n : Int)).natAbs → m * 2 ^ e ≠ roundSig p n →
      0 < excess p n ∧ roundQuot n (excess p n) % 2 = 0) := by
  by_cases hx : excess p n = 0
  · have hr : roundSig p n = n := by simp [roundSig, hx]
    rw [hr]
    generalize m * 2 ^ e = z
    exact ⟨by omega, fun h h' => by omega⟩
  obtain ⟨h1, h2⟩ := roundSig_near p n
  have hl : p < bitLen n := by unfold excess at hx; omega
  have hxe : excess p n = bitLen n - p := rfl
  have hev := @roundQuot_even n (excess p n)
  have hr : roundSig p n = roundQuot n (excess p n) * 2 ^ excess p n := rfl
  -- against the multiples of the unit
  have multiple : ∀ q : Nat,
      ((roundSig p n : Int) - n).natAbs ≤ ((q * 2 ^ excess p n : Nat) - (n : Int)).natAbs ∧
      (((roundSig p n : Int) - n).natAbs = ((q * 2 ^ excess p n : Nat) - (n : Int)).natAbs →
        q * 2 ^ excess p n ≠ roundSig p n → roundQuot n (excess p n) % 2 = 0) := by
    intro q
    rw [hr] at h1 h2 ⊢
    generalize roundQuot n (excess p n) = r at *
    generalize 2 ^ excess p n = u at *
    rcases Nat.lt_trichotomy q r with h | h | h
    · obtain ⟨d, rfl⟩ : ∃ d, r = q + 1 + d := ⟨r - q - 1, by omega⟩
      simp only [Nat.add_mul, Nat.one_mul] at h1 h2 hev ⊢
      generalize q * u = a at *
      generalize d * u = b at *
      exact ⟨by omega, fun _ _ => hev (by omega)⟩
    · subst h
      exact ⟨Nat.le_refl _, fun _ h => absurd rfl h⟩
    · obtain ⟨d, rfl⟩ : ∃ d, q = r + 1 + d := ⟨q - r - 1, by omega⟩
      simp only [Nat.add_mul, Nat.one_mul]
      generalize r * u = a at *
      generalize d * u = b at *
      exact ⟨by omega, fun _ _ => hev (by omega)⟩
  by_cases hz : excess p n ≤ e
  · have e1 : m * 2 ^ e = m * 2 ^ (e - excess p n) * 2 ^ excess p n := by
      rw [Nat.mul_assoc, ← Nat.pow_add, Nat.sub_add_cancel hz]
    rw [e1]
    exact ⟨(multiple _).1, fun h h' => ⟨by omega, (multiple _).2 h h'⟩⟩
  · -- any other number lies below the power of two that `n` reaches, itself a multiple of the unit
    have hlt : m * 2 ^ e < 2 ^ (p + e) := by
      rw [Nat.pow_add]
      exact Nat.mul_lt_mul_of_pos_right hm (Nat.two_pow_pos e)
    have hle : 2 ^ (p + e) ≤ 2 ^ (bitLen n - 1) := Nat.pow_le_pow_right (by decide) (by omega)
    have hn : 2 ^ (bitLen n - 1) ≤ n := two_pow_le_of_bitLen (by omega)
    have hm2 := (multiple (2 ^ (p - 1))).1
    have e2 : 2 ^ (p - 1) * 2 ^ excess p n = 2 ^ (bitLen n - 1) := by rw [← Nat.pow_add]; congr 1; omega
    rw [e2] at hm2
    exact ⟨by omega, fun h h' => by omega⟩

/-- Rounding to `p` significant digits is monotone. -/
theorem roundSig_mono {p n m : Nat} (hp : 0 < p) (h : n ≤ m) : roundSig p n ≤ roundSig p m := by
  rcases Nat.lt_or_eq_of_le (bitLen_mono h) with hl | hl
  · by_cases hn : bitLen n < p
    · have hn' : n < 2 ^ p := Nat.lt_of_lt_of_le (lt_two_pow_bitLen n) (Nat.pow_le_pow_right (by omega) (by omega))
      by_cases hm : bitLen m < p
      · have hm' : m < 2 ^ p :=
          Nat.lt_of_lt_of_le (lt_two_pow_bitLen m) (Nat.pow_le_pow_right (by omega) (by omega))
        rw [roundSig_of_lt hn', roundSig_of_lt hm']
        exact h
      · rw [roundSig_of_lt hn']
        have h1 := (roundQuot_range hp (by omega : p ≤ bitLen m)).1
        have h2 : n < 2 ^ (p - 1) :=
          Nat.lt_of_lt_of_le (lt_two_pow_bitLen n) (Nat.pow_le_pow_right (by omega) (by omega))
        have h3 : roundQuot m (excess p m) ≤ roundSig p m := Nat.le_mul_of_pos_right _ (Nat.two_pow_pos _)
        omega
    · have h1 := (roundQuot_range hp (by omega : p ≤ bitLen n)).2
      have h2 := (roundQuot_range hp (by omega : p ≤ bitLen m)).1
      have e : 2 ^ p * 2 ^ excess p n ≤ 2 ^ (p - 1) * 2 ^ excess p m := by
        rw [← Nat.pow_add, ← Nat.pow_add]
        exact Nat.pow_le_pow_right (by omega) (by unfold excess; omega)
      exact Nat.le_trans (Nat.mul_le_mul_right _ h1) (Nat.le_trans e (Nat.mul_le_mul_right _ h2))
  · have he : excess p n = excess p m := by unfold excess; omega
    unfold roundSig
    rw [he]
    exact Nat.mul_le_mul_right _ (roundQuot_mono _ h)

/-- binary64 rounding is monotone (40_channel_programmer.md R80). -/
theorem fl64_mono {v w : Int} (h : v ≤ w) : fl64 v ≤ fl64 w := by
  unfold fl64
  have key : ∀ {a b : Nat}, a ≤ b → (roundSig 53 a : Int) ≤ roundSig 53 b := fun hab =>
    Int.ofNat_le.2 (roundSig_mono (by decide) hab)
  split <;> split
  · exact Int.neg_le_neg (key (by omega))
  · exact Int.le_trans (by omega : _ ≤ (0 : Int)) (Int.natCast_nonneg _)
  · omega
  · exact key (by omega)

/-! ### binary32 encodings -/

/-- The encoding is monotone in the magnitude. -/
theorem encode32_mono {n m : Nat} (h : n ≤ m) : encode32 n ≤ encode32 m := by
  have key : excess 24 n * 2 ^ 23 + roundQuot n (excess 24 n) ≤ excess 24 m * 2 ^ 23 + roundQuot m (excess 24 m) := by
    rcases Nat.lt_or_eq_of_le (bitLen_mono h) with hl | hl
    · by_cases hm : bitLen m ≤ 24
      · have e1 : excess 24 n = 0 := by unfold excess; omega
        have e2 : excess 24 m = 0 := by unfold excess; omega
        simpa [e1, e2] using h
      · have h2 := (roundQuot_range (p := 24) (by decide) (by omega : 24 ≤ bitLen m)).1
        have hm' : excess 24 m = bitLen m - 24 := rfl
        by_cases hn : bitLen n < 24
        · have e1 : excess 24 n = 0 := by unfold excess; omega
          have h3 : n < 2 ^ 24 :=
            Nat.lt_of_lt_of_le (lt_two_pow_bitLen n) (Nat.pow_le_pow_right (by omega) (by omega))
          simp only [e1, roundQuot_zero]
          omega
        · have h1 := (roundQuot_range (p := 24) (by decide) (by omega : 24 ≤ bitLen n)).2
          have hn' : excess 24 n = bitLen n - 24 := rfl
          have : excess 24 n + 1 ≤ excess 24 m := by omega
          omega
    · have he : excess 24 n = excess 24 m := by unfold excess; omega
      rw [he]
      have := roundQuot_mono (excess 24 m) h
      omega
  unfold encode32
  omega

theorem encode32_le (n : Nat) : encode32 n ≤ 0x7F800000 := Nat.min_le_right _ _

@[simp] theorem toNat_pack32 (neg : Bool) {b : Nat} (h : b < 2 ^ 31) :
    (pack32 neg b).toNat = (if neg then 2 ^ 31 else 0) + b := by
  unfold pack32
  rw [BitVec.toNat_ofNat]
  cases neg <;> (simp; omega)

theorem sign32_iff (w : Word) : sign32 w = decide (2 ^ 31 ≤ w.toNat) := by
  simp [sign32, BitVec.msb_eq_decide]

@[simp] theorem sign32_pack32 (neg : Bool) {b : Nat} (h : b < 2 ^ 31) : sign32 (pack32 neg b) = neg := by
  rw [sign32_iff, toNat_pack32 neg h]
  cases neg
  · simpa using h
  · simp

theorem exponent32_pack32 (neg : Bool) {b : Nat} (h : b < 2 ^ 31) : exponent32 (pack32 neg b) = b / 2 ^ 23 := by
  unfold exponent32
  rw [toNat_pack32 neg h]
  cases neg <;> (simp; omega)

theorem fraction32_pack32 (neg : Bool) {b : Nat} (h : b < 2 ^ 31) : fraction32 (pack32 neg b) = b % 2 ^ 23 := by
  unfold fraction32
  rw [toNat_pack32 neg h]
  cases neg <;> simp only [Bool.false_eq_true, if_false, if_true] <;> omega

/-- A packed encoding is finite exactly below infinity's. -/
theorem isFinite32_pack32 (neg : Bool) {b : Nat} (h : b ≤ 0x7F800000) :
    isFinite32 (pack32 neg b) = decide (b < 0x7F800000) := by
  unfold isFinite32
  rw [exponent32_pack32 neg (by omega)]
  by_cases hb : b < 0x7F800000
  · simp only [hb, decide_true, bne_iff_ne, ne_eq]
    omega
  · have : b = 0x7F800000 := by omega
    subst this
    simp

/-- A word is its sign and its low 31 bits. -/
theorem pack32_self (w : Word) : pack32 (sign32 w) (w.toNat % 2 ^ 31) = w := by
  apply BitVec.eq_of_toNat_eq
  rw [toNat_pack32 _ (Nat.mod_lt _ (by decide)), sign32_iff]
  have := w.isLt
  by_cases h : 2 ^ 31 ≤ w.toNat
  · simp only [h, decide_true, if_true]; omega
  · simp only [h, decide_false, Bool.false_eq_true, if_false]; omega

theorem exponent32_lt (w : Word) : exponent32 w < 256 := Nat.mod_lt _ (by decide)

theorem fraction32_lt (w : Word) : fraction32 w < 2 ^ 23 := Nat.mod_lt _ (by decide)

theorem low31_eq (w : Word) : w.toNat % 2 ^ 31 = exponent32 w * 2 ^ 23 + fraction32 w := by
  unfold exponent32 fraction32
  omega

theorem isFinite32_iff (w : Word) : isFinite32 w = true ↔ exponent32 w < 255 := by
  have := exponent32_lt w
  simp only [isFinite32, bne_iff_ne, ne_eq]
  omega

/-- A finite word's magnitude encodes to its own low 31 bits: no binary32 value is rounded. -/
theorem encode32_magnitude {w : Word} (h : isFinite32 w = true) : encode32 (magnitude32 w) = w.toNat % 2 ^ 31 := by
  have he := (isFinite32_iff w).1 h
  have hf := fraction32_lt w
  rw [low31_eq]
  unfold encode32 magnitude32
  split
  · rename_i h0
    rw [excess_of_lt (by omega : fraction32 w < 2 ^ 24), roundQuot_zero, h0]
    omega
  · rename_i h0
    have hl : bitLen ((2 ^ 23 + fraction32 w) * 2 ^ (exponent32 w - 1)) = 23 + (exponent32 w - 1) + 1 := by
      apply bitLen_eq
      · rw [Nat.pow_add]
        exact Nat.mul_le_mul_right _ (by omega)
      · rw [show 23 + (exponent32 w - 1) + 1 = 24 + (exponent32 w - 1) by omega, Nat.pow_add]
        exact Nat.mul_lt_mul_of_pos_right (by omega) (Nat.two_pow_pos _)
    have hx : excess 24 ((2 ^ 23 + fraction32 w) * 2 ^ (exponent32 w - 1)) = exponent32 w - 1 := by
      unfold excess; omega
    rw [hx, roundQuot_mul]
    omega

/-- Below infinity, the encoding of `n` stands for `n` rounded to 24 significant digits (00_scope.md R10, `fl32`). -/
theorem magnitude32_encode (neg : Bool) {n : Nat} (h : encode32 n < 0x7F800000) :
    magnitude32 (pack32 neg (encode32 n)) = roundSig 24 n := by
  have hb : encode32 n < 2 ^ 31 := by omega
  have hv : encode32 n = excess 24 n * 2 ^ 23 + roundQuot n (excess 24 n) := by
    unfold encode32 at h ⊢; omega
  unfold magnitude32
  rw [exponent32_pack32 neg hb, fraction32_pack32 neg hb, hv]
  by_cases hl : bitLen n < 24
  · have hn : n < 2 ^ 23 :=
      Nat.lt_of_lt_of_le (lt_two_pow_bitLen n) (Nat.pow_le_pow_right (by omega) (by omega))
    rw [roundSig_of_lt (by omega : n < 2 ^ 24), excess_of_lt (by omega : n < 2 ^ 24), roundQuot_zero]
    rw [if_pos (by omega)]
    omega
  · obtain ⟨h1, h2⟩ := roundQuot_range (p := 24) (by decide) (by omega : 24 ≤ bitLen n)
    unfold roundSig
    generalize excess 24 n = sh at *
    generalize roundQuot n sh = q at *
    rcases Nat.lt_or_eq_of_le h2 with h2 | h2
    · have e1 : (sh * 2 ^ 23 + q) / 2 ^ 23 = sh + 1 := by omega
      have e2 : (sh * 2 ^ 23 + q) % 2 ^ 23 = q - 2 ^ 23 := by omega
      rw [e1, e2, if_neg (by omega), Nat.add_sub_cancel, Nat.add_sub_cancel' h1]
    · have e1 : (sh * 2 ^ 23 + q) / 2 ^ 23 = sh + 2 := by omega
      have e2 : (sh * 2 ^ 23 + q) % 2 ^ 23 = 0 := by omega
      rw [e1, e2, if_neg (by omega), h2, show sh + 2 - 1 = sh + 1 by omega, Nat.pow_succ]
      omega

/-! ### binary32 addition -/

/-- Rounding the value of a finite nonzero word gives the word back. -/
theorem round32_value {w : Word} (h : isFinite32 w = true) (h0 : value32 w ≠ 0) : round32 (value32 w) = w := by
  have hs : decide (value32 w < 0) = sign32 w := by
    unfold value32 at *
    cases hsw : sign32 w <;> simp only [hsw, Bool.false_eq_true, if_false, if_true, decide_eq_true_eq, decide_eq_false_iff_not] at * <;> omega
  have hn : (value32 w).natAbs = magnitude32 w := by
    unfold value32; split <;> simp
  unfold round32
  rw [hs, hn, encode32_magnitude h, pack32_self]

@[simp] theorem natAbs_value32 (w : Word) : (value32 w).natAbs = magnitude32 w := by
  unfold value32; split <;> simp

theorem value32_pack32 (neg : Bool) {b : Nat} (h : b < 2 ^ 31) :
    value32 (pack32 neg b) =
      if neg then -(magnitude32 (pack32 false b) : Int) else magnitude32 (pack32 false b) := by
  have hm : magnitude32 (pack32 neg b) = magnitude32 (pack32 false b) := by
    unfold magnitude32
    rw [exponent32_pack32 neg h, fraction32_pack32 neg h, exponent32_pack32 false h, fraction32_pack32 false h]
  unfold value32
  rw [sign32_pack32 neg h, hm]

@[simp] theorem value32_pack32_zero (neg : Bool) : value32 (pack32 neg 0) = 0 := by
  cases neg <;> decide +kernel

/-- Negation negates the value. -/
@[simp] theorem value32_negate32 (w : Word) : value32 (negate32 w) = -value32 w := by
  have hb : w.toNat % 2 ^ 31 < 2 ^ 31 := Nat.mod_lt _ (by decide)
  have h1 := value32_pack32 (!sign32 w) hb
  have h2 := value32_pack32 (sign32 w) hb
  rw [pack32_self] at h2
  unfold negate32
  rw [h1, h2]
  cases sign32 w <;> simp

/-- `v` rounded to 24 significant digits, sign kept: the value of `fl32` short of overflow (00_scope.md R10). -/
def roundValue (v : Int) : Int := if v < 0 then -(roundSig 24 v.natAbs : Int) else roundSig 24 v.natAbs

theorem roundValue_natAbs (v : Int) : (roundValue v).natAbs = roundSig 24 v.natAbs := by
  unfold roundValue; split <;> simp

/-- Everything a sum of two words can be (41_angle_pipeline.md R100): it is finite exactly when the exact sum encodes below infinity,
and then its value is the exact sum rounded once. -/
theorem isFinite32_add32 (x y : Word) :
    isFinite32 (add32 x y) = decide (encode32 (value32 x + value32 y).natAbs < 0x7F800000) := by
  unfold add32
  dsimp only
  split
  · rename_i h
    rw [h, isFinite32_pack32 _ (by decide)]
    decide +kernel
  · exact isFinite32_pack32 _ (encode32_le _)

theorem value32_add32 {x y : Word} (h : isFinite32 (add32 x y) = true) :
    value32 (add32 x y) = roundValue (value32 x + value32 y) := by
  rw [isFinite32_add32, decide_eq_true_eq] at h
  unfold add32
  dsimp only
  split
  · rename_i h0
    rw [h0, value32_pack32_zero]
    simp [roundValue, roundSig_of_lt]
  · unfold round32 roundValue
    rw [value32_pack32 _ (by omega), magnitude32_encode false h]
    simp

end Sys2Proof.Machine
end

