-- ==== Sys2Proof/Laws/Operands.lean ====
section
/-! SUPPORT. The laws of the operand operations: comparison and clamp of finite angles, well-formed limits, and the sizes of the frames. -/

namespace Sys2Proof.Machine

theorem isNaN32_of_finite {w : Word} (h : isFinite32 w = true) : isNaN32 w = false := by
  simp only [isFinite32, bne_iff_ne, ne_eq] at h
  simp [isNaN32, h]

/-- On finite words the IEEE comparison compares values (00_scope.md R10). -/
theorem lt32_of_finite {x y : Word} (hx : isFinite32 x = true) (hy : isFinite32 y = true) :
    lt32 x y = decide (value32 x < value32 y) := by
  simp [lt32, isNaN32_of_finite hx, isNaN32_of_finite hy]

/-- Everything CLAMP can answer on finite inputs (41_angle_pipeline.md R104). -/
theorem clampAngle_of_finite {x lo hi : Word} (hx : isFinite32 x = true) (hl : isFinite32 lo = true)
    (hh : isFinite32 hi = true) :
    clampAngle x lo hi = if value32 x < value32 lo then lo else if value32 hi < value32 x then hi else x := by
  simp [clampAngle, lt32_of_finite, hx, hl, hh]

/-- CLAMP answers one of its three inputs. -/
theorem clampAngle_cases (x lo hi : Word) :
    clampAngle x lo hi = x ∨ clampAngle x lo hi = lo ∨ clampAngle x lo hi = hi := by
  unfold clampAngle
  split
  · exact .inr (.inl rfl)
  · split
    · exact .inr (.inr rfl)
    · exact .inl rfl

/-- What well-formed limits are (10_state.md R27). -/
theorem wellFormed_limits {l : Limits} (h : l.wellFormed = true) :
    (isFinite32 l.minT = true ∧ isFinite32 l.maxT = true ∧ value32 l.minT ≤ value32 l.maxT) ∧
    (isFinite32 l.minS = true ∧ isFinite32 l.maxS = true ∧ value32 l.minS ≤ value32 l.maxS) := by
  simp only [Limits.wellFormed, le32, Bool.and_eq_true, decide_eq_true_eq] at h
  tauto

/-- A window's four bytes (30_encoding.md R72): ON is 0, then the count, low byte first. -/
theorem window_eq (v : Count) : window v = [0x00, 0x00, v.extractLsb' 0 8, v.extractLsb' 8 8] := by
  have h : lowByte onCount = 0x00 ∧ highByte onCount = 0x00 := by decide +kernel
  simp only [window, h.1, h.2]
  rfl

/-- A valid channel's base is `0x06 + 4*ch`, without wrapping (20_memory.md R41). -/
theorem toNat_channelBase {ch : Nat} (h : ch < 16) : (channelBase ch).toNat = 6 + 4 * ch := by
  simp [channelBase, ledBase, windowStride]
  omega

@[simp] theorem window_length (v : Count) : (window v).length = 4 := rfl

@[simp] theorem frameOne_length (ch : Byte) (v : Count) : (frameOne ch v).length = 5 := rfl

/-- A frame of `n` windows has `1 + 4 n` bytes (30_encoding.md R71). -/
theorem frameAll_length (vs : List Count) : (frameAll vs).length = 1 + 4 * vs.length := by
  simp [frameAll]; omega

/-- Byte `j` of window `i` of the all-channel frame. -/
theorem frameAll_getElem? (vs : List Count) (i j : Nat) (hj : j < 4) :
    (frameAll vs)[4 * i + j + 1]? = (vs[i]?).bind fun v => (window v)[j]? := by
  simp only [frameAll, List.getElem?_cons_succ]
  induction vs generalizing i with
  | nil => simp
  | cons v vs ih =>
    cases i with
    | zero => simp [List.getElem?_append_left (show j < (window v).length from hj)]
    | succ i =>
      have e : 4 * (i + 1) + j = (window v).length + (4 * i + j) := by simp; omega
      rw [List.flatMap_cons, e, List.getElem?_append_right (by omega), Nat.add_sub_cancel_left, ih]
      simp

end Sys2Proof.Machine
end

