-- ==== Sys2Proof/Laws/PerInstr.lean ====
section
/-! SUPPORT. Facts stated for every instruction, one lemma per constructor.

Family `EncodeRow`: the encoder's word is selected by the row of the instruction's own mnemonic in the opcode map (30_encoding.md R64, R65). -/

namespace Sys2Proof.Laws.EncodeRow

/-- R65 selects the instruction's own row for its encoded word. -/
def Statement (i : Instr) : Prop := rowOf (encode i).word = some (mnemonicOf i)

theorem setch (ch : Byte) (a : Word) : Statement (.setch ch a) := by
  have h : ∀ ch : Byte, rowOf (commandWord 0x01 ch false .thigh) = some "SETCH" := by decide +kernel
  exact h ch

theorem setall (ang : Vector Word 16) : Statement (.setall ang) := by
  have h : rowOf (commandWord 0x02 0 false .thigh) = some "SETALL" := by decide +kernel
  exact h

theorem mirror (a : Word) : Statement (.mirror a) := by
  have h : rowOf (commandWord 0x10 0 false .thigh) = some "MIRROR" := by decide +kernel
  exact h

theorem offset (a d : Word) : Statement (.offset a d) := by
  have h : rowOf (commandWord 0x11 0 false .thigh) = some "OFFSET" := by decide +kernel
  exact h

theorem clampt (a : Word) : Statement (.clampt a) := by
  have h : rowOf (commandWord 0x12 0 false .thigh) = some "CLAMPT" := by decide +kernel
  exact h

theorem clamps (a : Word) : Statement (.clamps a) := by
  have h : rowOf (commandWord 0x13 0 false .thigh) = some "CLAMPS" := by decide +kernel
  exact h

theorem cond (mir : Bool) (cls : JointClass) (a d : Word) : Statement (.cond mir cls a d) := by
  have h : rowOf (commandWord 0x14 0 mir cls) = some "COND" := by cases mir <;> cases cls <;> decide +kernel
  exact h

theorem a2off (a : Word) : Statement (.a2off a) := by
  have h : rowOf (commandWord 0x15 0 false .thigh) = some "A2OFF" := by decide +kernel
  exact h

end Sys2Proof.Laws.EncodeRow
end

