-- ==== Sys2Proof/Laws/State.lean ====
section
/-! SUPPORT. What each named operation does to each field of the state, so that no proof unfolds a record update. -/

namespace Sys2Proof.Machine

@[simp] theorem present_phase (r : Response) (s : State) : (present r s).phase = s.phase := rfl
@[simp] theorem present_rsp (r : Response) (s : State) : (present r s).rsp = some r := rfl
@[simp] theorem present_config (r : Response) (s : State) : (present r s).config = s.config := rfl
@[simp] theorem present_treg (r : Response) (s : State) : (present r s).treg = s.treg := rfl
@[simp] theorem present_draws (r : Response) (s : State) : (present r s).draws = s.draws := rfl
@[simp] theorem present_port (r : Response) (s : State) : (present r s).port = s.port := rfl
@[simp] theorem present_events (r : Response) (s : State) : (present r s).events = s.events := rfl
@[simp] theorem present_bus (r : Response) (s : State) : (present r s).bus = s.bus := rfl
@[simp] theorem present_responses (r : Response) (s : State) : (present r s).responses = s.responses ++ [r] := rfl

@[simp] theorem succeed_phase (v : Word) (s : State) : (succeed v s).phase = s.phase := rfl
@[simp] theorem succeed_rsp (v : Word) (s : State) : (succeed v s).rsp = some ⟨resultByte .ok, v⟩ := rfl
@[simp] theorem succeed_config (v : Word) (s : State) : (succeed v s).config = s.config := rfl
@[simp] theorem succeed_treg (v : Word) (s : State) : (succeed v s).treg = s.treg := rfl
@[simp] theorem succeed_draws (v : Word) (s : State) : (succeed v s).draws = s.draws := rfl
@[simp] theorem succeed_port (v : Word) (s : State) : (succeed v s).port = s.port := rfl
@[simp] theorem succeed_events (v : Word) (s : State) : (succeed v s).events = s.events := rfl
@[simp] theorem succeed_bus (v : Word) (s : State) : (succeed v s).bus = s.bus := rfl
@[simp] theorem succeed_responses (v : Word) (s : State) : (succeed v s).responses = s.responses ++ [⟨resultByte .ok, v⟩] := rfl

@[simp] theorem raise_phase (c : ResultCode) (s : State) : (raise c s).phase = s.phase := rfl
@[simp] theorem raise_rsp (c : ResultCode) (s : State) : (raise c s).rsp = some ⟨resultByte c, 0⟩ := rfl
@[simp] theorem raise_config (c : ResultCode) (s : State) : (raise c s).config = s.config := rfl
@[simp] theorem raise_treg (c : ResultCode) (s : State) : (raise c s).treg = s.treg := rfl
@[simp] theorem raise_draws (c : ResultCode) (s : State) : (raise c s).draws = s.draws := rfl
@[simp] theorem raise_port (c : ResultCode) (s : State) : (raise c s).port = s.port := rfl
@[simp] theorem raise_events (c : ResultCode) (s : State) : (raise c s).events = s.events := rfl
@[simp] theorem raise_bus (c : ResultCode) (s : State) : (raise c s).bus = s.bus := rfl
@[simp] theorem raise_responses (c : ResultCode) (s : State) : (raise c s).responses = s.responses ++ [⟨resultByte c, 0⟩] := rfl

@[simp] theorem transmit_phase (i : Instr) (f : Frame) (s : State) : (transmit i f s).phase = .xmit { cmd := i, frame := f } := rfl
@[simp] theorem transmit_rsp (i : Instr) (f : Frame) (s : State) : (transmit i f s).rsp = none := rfl
@[simp] theorem transmit_config (i : Instr) (f : Frame) (s : State) : (transmit i f s).config = s.config := rfl
@[simp] theorem transmit_treg (i : Instr) (f : Frame) (s : State) : (transmit i f s).treg = s.treg := rfl
@[simp] theorem transmit_draws (i : Instr) (f : Frame) (s : State) : (transmit i f s).draws = s.draws := rfl
@[simp] theorem transmit_port (i : Instr) (f : Frame) (s : State) : (transmit i f s).port = s.port := rfl
@[simp] theorem transmit_events (i : Instr) (f : Frame) (s : State) : (transmit i f s).events = s.events := rfl
@[simp] theorem transmit_bus (i : Instr) (f : Frame) (s : State) : (transmit i f s).bus = s.bus ++ [⟨s.config.deviceAddress, s.config.busTimeout, f⟩] := rfl
@[simp] theorem transmit_responses (i : Instr) (f : Frame) (s : State) : (transmit i f s).responses = s.responses := rfl

@[simp] theorem releaseFrame_phase (l : Bool) (h : Held) (s : State) : (releaseFrame l h s).phase = .idle := rfl
@[simp] theorem releaseFrame_rsp (l : Bool) (h : Held) (s : State) : (releaseFrame l h s).rsp = s.rsp := rfl
@[simp] theorem releaseFrame_config (l : Bool) (h : Held) (s : State) : (releaseFrame l h s).config = s.config := rfl
@[simp] theorem releaseFrame_treg (l : Bool) (h : Held) (s : State) : (releaseFrame l h s).treg = landFrame l h.foreign s.draws h.frame s.treg := rfl
@[simp] theorem releaseFrame_draws (l : Bool) (h : Held) (s : State) : (releaseFrame l h s).draws = s.draws + (addressed h.frame).length := rfl
@[simp] theorem releaseFrame_port (l : Bool) (h : Held) (s : State) : (releaseFrame l h s).port = s.port := rfl
@[simp] theorem releaseFrame_events (l : Bool) (h : Held) (s : State) : (releaseFrame l h s).events = s.events := rfl
@[simp] theorem releaseFrame_bus (l : Bool) (h : Held) (s : State) : (releaseFrame l h s).bus = s.bus := rfl
@[simp] theorem releaseFrame_responses (l : Bool) (h : Held) (s : State) : (releaseFrame l h s).responses = s.responses := rfl

@[simp] theorem complete_phase (x : Status) (h : Held) (s : State) : (complete x h s).phase = .idle := rfl
@[simp] theorem complete_rsp (x : Status) (h : Held) (s : State) : (complete x h s).rsp = some ⟨resultByte (statusCode x), 0⟩ := rfl
@[simp] theorem complete_config (x : Status) (h : Held) (s : State) : (complete x h s).config = s.config := rfl
@[simp] theorem complete_treg (x : Status) (h : Held) (s : State) : (complete x h s).treg = landFrame (frameLanded x s.treg) h.foreign s.draws h.frame s.treg := rfl
@[simp] theorem complete_draws (x : Status) (h : Held) (s : State) : (complete x h s).draws = s.draws + (addressed h.frame).length := rfl
@[simp] theorem complete_port (x : Status) (h : Held) (s : State) : (complete x h s).port = s.port := rfl
@[simp] theorem complete_events (x : Status) (h : Held) (s : State) : (complete x h s).events = s.events := rfl
@[simp] theorem complete_bus (x : Status) (h : Held) (s : State) : (complete x h s).bus = s.bus := rfl
@[simp] theorem complete_responses (x : Status) (h : Held) (s : State) : (complete x h s).responses = s.responses ++ [⟨resultByte (statusCode x), 0⟩] := rfl

@[simp] theorem placeCommand_phase (c : Command) (s : State) : (placeCommand c s).phase = .idle := rfl
@[simp] theorem placeCommand_rsp (c : Command) (s : State) : (placeCommand c s).rsp = s.rsp := rfl
@[simp] theorem placeCommand_config (c : Command) (s : State) : (placeCommand c s).config = s.config := rfl
@[simp] theorem placeCommand_treg (c : Command) (s : State) : (placeCommand c s).treg = s.treg := rfl
@[simp] theorem placeCommand_draws (c : Command) (s : State) : (placeCommand c s).draws = s.draws := rfl
@[simp] theorem placeCommand_port (c : Command) (s : State) : (placeCommand c s).port = c :: s.port := rfl
@[simp] theorem placeCommand_events (c : Command) (s : State) : (placeCommand c s).events = s.events := rfl
@[simp] theorem placeCommand_bus (c : Command) (s : State) : (placeCommand c s).bus = s.bus := rfl
@[simp] theorem placeCommand_responses (c : Command) (s : State) : (placeCommand c s).responses = s.responses := rfl

@[simp] theorem resetBlock_config (s : State) : (resetBlock s).config = s.config := by
  unfold resetBlock; cases s.phase <;> rfl

@[simp] theorem resetBlock_port (s : State) : (resetBlock s).port = s.port := by
  unfold resetBlock; cases s.phase <;> rfl

@[simp] theorem resetBlock_events (s : State) : (resetBlock s).events = s.events := by
  unfold resetBlock; cases s.phase <;> rfl

@[simp] theorem resetBlock_bus (s : State) : (resetBlock s).bus = s.bus := by
  unfold resetBlock; cases s.phase <;> rfl

@[simp] theorem resetBlock_responses (s : State) : (resetBlock s).responses = s.responses := by
  unfold resetBlock; cases s.phase <;> rfl

@[simp] theorem resetBlock_rsp (s : State) : (resetBlock s).rsp = none := by
  unfold resetBlock; cases s.phase <;> rfl

@[simp] theorem resetBlock_phase (s : State) : (resetBlock s).phase = .idle := by
  unfold resetBlock; split <;> simp_all

@[simp] theorem foreignWrite_rsp (a d : Byte) (s : State) : (foreignWrite a d s).rsp = s.rsp := by
  unfold foreignWrite; split <;> (try split) <;> rfl

@[simp] theorem foreignWrite_config (a d : Byte) (s : State) : (foreignWrite a d s).config = s.config := by
  unfold foreignWrite; split <;> (try split) <;> rfl

@[simp] theorem foreignWrite_port (a d : Byte) (s : State) : (foreignWrite a d s).port = s.port := by
  unfold foreignWrite; split <;> (try split) <;> rfl

@[simp] theorem foreignWrite_events (a d : Byte) (s : State) : (foreignWrite a d s).events = s.events := by
  unfold foreignWrite; split <;> (try split) <;> rfl

@[simp] theorem foreignWrite_bus (a d : Byte) (s : State) : (foreignWrite a d s).bus = s.bus := by
  unfold foreignWrite; split <;> (try split) <;> rfl

@[simp] theorem foreignWrite_responses (a d : Byte) (s : State) : (foreignWrite a d s).responses = s.responses := by
  unfold foreignWrite; split <;> (try split) <;> rfl

@[simp] theorem returnAngle_phase (r : Word) (s : State) : (returnAngle r s).phase = s.phase := by
  unfold returnAngle; split <;> rfl

@[simp] theorem returnAngle_config (r : Word) (s : State) : (returnAngle r s).config = s.config := by
  unfold returnAngle; split <;> rfl

@[simp] theorem returnAngle_treg (r : Word) (s : State) : (returnAngle r s).treg = s.treg := by
  unfold returnAngle; split <;> rfl

@[simp] theorem returnAngle_draws (r : Word) (s : State) : (returnAngle r s).draws = s.draws := by
  unfold returnAngle; split <;> rfl

@[simp] theorem returnAngle_port (r : Word) (s : State) : (returnAngle r s).port = s.port := by
  unfold returnAngle; split <;> rfl

@[simp] theorem returnAngle_events (r : Word) (s : State) : (returnAngle r s).events = s.events := by
  unfold returnAngle; split <;> rfl

@[simp] theorem returnAngle_bus (r : Word) (s : State) : (returnAngle r s).bus = s.bus := by
  unfold returnAngle; split <;> rfl

/-- An angle result: OK with its bits if it is finite, INVALID_ANGLE with 0 if not (41_angle_pipeline.md R101). -/
theorem returnAngle_cases (r : Word) (s : State) :
    (isFinite32 r = true ∧ returnAngle r s = succeed r s) ∨
    (isFinite32 r = false ∧ returnAngle r s = raise .invalidAngle s) := by
  unfold returnAngle
  cases isFinite32 r <;> simp

end Sys2Proof.Machine
end

