-- ==== Sys2Proof/Laws/Sequencer.lean ====
section
/-! SUPPORT. Everything a command and a step can do, said once: the case lemmas that invariants are derived from. -/

namespace Sys2Proof.Machine

/-- What a command can do: answer OK, answer an error, or hand over its frame (60_exceptions.md R126, 10_state.md R23). -/
theorem exec_cases {i : Instr} {s t : State} (h : exec i s = .next t) :
    (∃ v, frameOf i = none ∧ t = succeed v s) ∨
    (∃ c, frameOf i = none ∧ t = raise c s) ∨
    (∃ f, frameOf i = some f ∧ t = transmit i f s) := by
  cases i with
  | setch ch a =>
    simp only [exec, execSetch] at h
    split at h
    · cases h
      exact .inr (.inl ⟨_, by simp [frameOf]; omega, rfl⟩)
    · split at h
      · cases h
        exact .inr (.inr ⟨_, by simp [frameOf, *], rfl⟩)
      · cases h
        exact .inr (.inl ⟨_, by simp [frameOf, *], rfl⟩)
  | setall ang =>
    simp only [exec, execSetall] at h
    split at h
    · rename_i hf
      cases h
      exact .inr (.inr ⟨_, by simp only [frameOf, if_pos hf], rfl⟩)
    · rename_i hf
      cases h
      exact .inr (.inl ⟨_, by simp only [frameOf, if_neg hf], rfl⟩)
  | mirror a =>
    simp only [exec, execMirror] at h
    split at h <;> cases h
    · exact .inl ⟨_, rfl, rfl⟩
    · exact .inr (.inl ⟨_, rfl, rfl⟩)
  | offset a d =>
    simp only [exec, execOffset] at h
    split at h <;> cases h
    · rcases returnAngle_cases (offsetAngle a d) s with ⟨-, e⟩ | ⟨-, e⟩
      · exact .inl ⟨_, rfl, e⟩
      · exact .inr (.inl ⟨_, rfl, e⟩)
    · exact .inr (.inl ⟨_, rfl, rfl⟩)
  | clampt a =>
    simp only [exec, execClampt] at h
    split at h <;> cases h
    · exact .inl ⟨_, rfl, rfl⟩
    · exact .inr (.inl ⟨_, rfl, rfl⟩)
  | clamps a =>
    simp only [exec, execClamps] at h
    split at h <;> cases h
    · exact .inl ⟨_, rfl, rfl⟩
    · exact .inr (.inl ⟨_, rfl, rfl⟩)
  | cond mir cls a d =>
    simp only [exec, execCond] at h
    split at h
    · split at h <;> cases h
      · exact .inl ⟨_, rfl, rfl⟩
      · exact .inr (.inl ⟨_, rfl, rfl⟩)
    · cases h
      exact .inr (.inl ⟨_, rfl, rfl⟩)
  | a2off a =>
    simp only [exec, execA2off] at h
    split at h <;> cases h
    · exact .inl ⟨_, rfl, rfl⟩
    · exact .inr (.inl ⟨_, rfl, rfl⟩)

/-- What a step can do (10_state.md R23, 70_reset_and_hazards.md R146): accept the command first on the port, in IDLE only, or
let the environment move. -/
theorem step_cases {s t : State} (h : step s = .next t) :
    (∃ c cs, s.phase = .idle ∧ s.port = c :: cs ∧ accept c { s with port := cs } = .next t) ∨
    ((s.phase = .idle → s.port = []) ∧
      ((s.events = [] ∧ t = s) ∨
        ∃ e es, s.events = e :: es ∧ deliver e { s with events := es } = .next t)) := by
  unfold step sequencerStep at h
  split at h
  · rename_i c cs hp hq
    exact .inl ⟨c, cs, hp, hq, h⟩
  · rename_i hno
    refine .inr ⟨fun hp => ?_, ?_⟩
    · cases hq : s.port with
      | nil => rfl
      | cons c cs => exact absurd hq (hno c cs hp)
    · unfold environmentMove at h
      split at h
      · rename_i he
        cases h
        exact .inl ⟨he, rfl⟩
      · rename_i e es he
        exact .inr ⟨e, es, he, h⟩

/-- What accepting a command can do: the decoded command runs, or its word is illegal (30_encoding.md R65). -/
theorem accept_cases {c : Command} {s t : State} (h : accept c s = .next t) :
    (∃ i, decode c = .instr i ∧ exec i s = .next t) ∨
    (∃ why, decode c = .illegal why ∧ t = raise .illegalCommand s) := by
  unfold accept at h
  split at h
  · rename_i i hd
    exact .inl ⟨i, hd, h⟩
  · rename_i why hd
    cases h
    exact .inr ⟨why, hd, rfl⟩

/-- What an event can do (70_reset_and_hazards.md R152). -/
theorem deliver_cases {e : Event} {s t : State} (h : deliver e s = .next t) :
    (∃ c, e = .offer c ∧ t = { s with port := s.port ++ [c] }) ∨
    (∃ x held, e = .answer x ∧ s.phase = .xmit held ∧ t = complete x held s) ∨
    (e = .takeResponse ∧ t = { s with rsp := none }) ∨
    (e = .reset ∧ t = resetBlock s) ∨
    (∃ a d, e = .busWrite a d ∧ t = foreignWrite a d s) := by
  cases e with
  | offer c => cases h; exact .inl ⟨c, rfl, rfl⟩
  | answer x =>
    simp only [deliver, receiveAnswer] at h
    split at h
    · cases h
    · rename_i held hp
      cases h
      exact .inr (.inl ⟨x, held, rfl, hp, rfl⟩)
  | takeResponse => cases h; exact .inr (.inr (.inl ⟨rfl, rfl⟩))
  | reset => cases h; exact .inr (.inr (.inr (.inl ⟨rfl, rfl⟩)))
  | busWrite a d => cases h; exact .inr (.inr (.inr (.inr ⟨a, d, rfl, rfl⟩)))

/-- In IDLE with a command on offer, the step accepts it. -/
theorem step_of_command {s : State} {c : Command} {cs : List Command} (hp : s.phase = .idle) (hq : s.port = c :: cs) :
    step s = accept c { s with port := cs } := by
  simp only [step, sequencerStep, hp, hq]

/-- With nothing to accept, the step is the next event's. -/
theorem step_of_event {s : State} {e : Event} {es : List Event} (hno : s.phase = .idle → s.port = [])
    (he : s.events = e :: es) : step s = deliver e { s with events := es } := by
  unfold step sequencerStep
  split
  · rename_i hp hq
    rw [hno hp] at hq
    cases hq
  · simp only [environmentMove, he]

end Sys2Proof.Machine
end

