-- ==== Sys2Proof/Tests/Slice0.lean ====
section
/-! SUPPORT. The model's own tests: ill-formed terms are refused, words written out from 30_encoding.md R60 decode, single steps give the
values of 95_test_vectors.md, and every statement's hypotheses have a witness.

Expected values come from the spec's vectors; configuration E1 (41_angle_pipeline.md) is the spec's test choice. -/

namespace Sys2Proof.Tests

open Sys2Proof Sys2Proof.Machine

-- One theorem at a time: checked side by side, this many take a thread each.
set_option Elab.async false

/-! ### Ill-formed terms, one for each check -/

theorem test_illformed_unassigned_op : wordWellFormed 0x00000003 = false := by decide
theorem test_illformed_reserved_bit : wordWellFormed 0x00040014 = false := by decide
theorem test_illformed_channel_outside_setch : wordWellFormed 0x00000115 = false := by decide
theorem test_illformed_mirror_outside_cond : wordWellFormed 0x00010001 = false := by decide
theorem test_illformed_class_outside_cond : wordWellFormed 0x00020002 = false := by decide
theorem test_wellformed_setch_any_channel : wordWellFormed 0x0000FF01 = true := by decide

theorem test_limits_e1 :
    Limits.wellFormed { minT := 0x41F00000, maxT := 0x43160000, minS := 0x41A00000, maxS := 0x43200000 } = true := by
  decide +kernel
theorem test_limits_infinite_minT : Limits.wellFormed { minT := 0xFF800000 } = false := by decide +kernel
theorem test_limits_infinite_maxT : Limits.wellFormed { maxT := 0x7F800000 } = false := by decide +kernel
theorem test_limits_nan_minS : Limits.wellFormed { minS := 0x7FC00000 } = false := by decide +kernel
theorem test_limits_infinite_maxS : Limits.wellFormed { maxS := 0x7F800000 } = false := by decide +kernel
theorem test_limits_thigh_reversed : Limits.wellFormed { minT := 0x43160000, maxT := 0x41F00000 } = false := by decide +kernel
theorem test_limits_shank_reversed : Limits.wellFormed { minS := 0x43200000, maxS := 0x41A00000 } = false := by decide +kernel

/-! ### Decoding: words written out field by field, RSV CLS MIR CH OP -/

theorem test_decode_setch :
    decode { word := 0b00000000000000_0_0_00001111_00000001, a := 7 } = .instr (.setch 15 7) := by decide
theorem test_decode_setall :
    decode { word := 0b00000000000000_0_0_00000000_00000010 } = .instr (.setall (Vector.replicate 16 0)) := by decide
theorem test_decode_mirror :
    decode { word := 0b00000000000000_0_0_00000000_00010000, a := 7 } = .instr (.mirror 7) := by decide
theorem test_decode_offset :
    decode { word := 0b00000000000000_0_0_00000000_00010001, a := 7, d := 9 } = .instr (.offset 7 9) := by decide
theorem test_decode_clampt :
    decode { word := 0b00000000000000_0_0_00000000_00010010, a := 7 } = .instr (.clampt 7) := by decide
theorem test_decode_clamps :
    decode { word := 0b00000000000000_0_0_00000000_00010011, a := 7 } = .instr (.clamps 7) := by decide
theorem test_decode_cond :
    decode { word := 0b00000000000000_1_0_00000000_00010100, a := 7, d := 9 } = .instr (.cond false .shank 7 9) := by decide
theorem test_decode_cond_mirror :
    decode { word := 0b00000000000000_0_1_00000000_00010100, a := 7, d := 9 } = .instr (.cond true .thigh 7 9) := by decide
theorem test_decode_a2off :
    decode { word := 0b00000000000000_0_0_00000000_00010101, a := 7 } = .instr (.a2off 7) := by decide
theorem test_decode_illegal_op : decode { word := 0x000000FF } = .illegal .unassignedOp := by decide
theorem test_decode_illegal_bit : decode { word := 0xFFFF0002 } = .illegal .bitOutsideMask := by decide
theorem test_table_word : decodeTableWord 32 0x00030014 = some (.cond true .shank 0 0) := by decide
theorem test_encode_cond : (encode (.cond true .shank 7 9)).word = 0x00030014 := by decide

/-! ### Numbers -/

theorem test_sum_rounds : add32 0x3DCCCCCD 0x3E4CCCCD = 0x3E99999A := by decide +kernel
theorem test_sum_overflows : add32 0x7F7FFFFF 0x7F7FFFFF = 0x7F800000 := by decide +kernel
theorem test_sum_no_overflow : add32 0x7F7FFFFF 0x3F800000 = 0x7F7FFFFF := by decide +kernel
theorem test_sum_negative_zeros : add32 0x80000000 0x80000000 = 0x80000000 := by decide +kernel
theorem test_sum_subnormals_cancel : add32 0x00000001 0x80000001 = 0x00000000 := by decide +kernel
theorem test_compare_zeros : lt32 0x80000000 0x00000000 = false := by decide +kernel
theorem test_compare_nan : lt32 0x7FC00000 0x00000000 = false := by decide +kernel
theorem test_count_binary64 : offCount 0x43BB8000 = 955 := by decide +kernel
theorem test_count_truncates_below_zero : offCount 0xBE99999A = 102 := by decide +kernel

/-! ### One step of each command -/

/-- Configuration E1 of 41_angle_pipeline.md. -/
def e1 : Configuration where
  limits := { minT := 0x41F00000, maxT := 0x43160000, minS := 0x41A00000, maxS := 0x43200000 }
  wellFormed := test_limits_e1

/-- The start state of 95_test_vectors.md, L3: just reset, E1, AUTOINC set by the lifecycle. -/
def start : State := { State.reset with config := e1, treg := [(0, 0x20)] }

/-- The start state with one command on offer and the given events to come. -/
def offering (c : Command) (es : List Event) : State := { start with port := [c], events := es }

/-- The state a step leads to; the state itself where the machine stops. -/
def after (s : State) : State :=
  match step s with
  | .next t => t
  | .fault _ => s
  | .refused _ => s

/-- The response that a command's own step presents. -/
def respond (c : Command) : Option Response := (after (offering c [])).rsp

/-- SETCH 15, 90.0, whose window is the last one. -/
def lastChannel : Command := { word := 0x00000F01, a := 0x42B40000 }

/-- The frame in flight after `lastChannel` is accepted (V-RST-2). -/
def lastHeld : Held := { cmd := .setch 15 0x42B40000, frame := [0x42, 0x00, 0x00, 0x33, 0x01] }

/-- The state in which that frame is in flight, with the given events to come. -/
def inFlight (es : List Event) : State :=
  { start with phase := .xmit lastHeld, events := es, bus := [⟨e1.deviceAddress, e1.busTimeout, lastHeld.frame⟩] }

theorem test_mirror : respond { word := 0x10, a := 0x43480000 } = some ⟨0x00, 0xC1A00000⟩ := by decide +kernel
theorem test_mirror_nan : respond { word := 0x10, a := 0x7FC00000 } = some ⟨0x04, 0⟩ := by decide +kernel
theorem test_offset : respond { word := 0x11, a := 0x42B40000, d := 0x40A00000 } = some ⟨0x00, 0x42BE0000⟩ := by
  decide +kernel
theorem test_offset_overflow : respond { word := 0x11, a := 0xFF7FFFFF, d := 0xFF7FFFFF } = some ⟨0x04, 0⟩ := by
  decide +kernel
theorem test_clampt : respond { word := 0x12, a := 0x43200000 } = some ⟨0x00, 0x43160000⟩ := by decide +kernel
theorem test_clampt_inside : respond { word := 0x12, a := 0x42B40000 } = some ⟨0x00, 0x42B40000⟩ := by decide +kernel
theorem test_clamps : respond { word := 0x13, a := 0x41EFFFFF } = some ⟨0x00, 0x41EFFFFF⟩ := by decide +kernel
theorem test_clamps_below : respond { word := 0x13, a := 0x80000000 } = some ⟨0x00, 0x41A00000⟩ := by decide +kernel
theorem test_cond : respond { word := 0x00030014, a := 0x42340000, d := 0xC0600000 } = some ⟨0x00, 0x43038000⟩ := by
  decide +kernel
theorem test_cond_mirror_first :
    respond { word := 0x00010014, a := 0x7F7FFFFF, d := 0x7F7FFFFF } = some ⟨0x00, 0x41F00000⟩ := by decide +kernel
theorem test_a2off : respond { word := 0x15, a := 0xC2480000 } = some ⟨0x00, 0x0000FFF5⟩ := by decide +kernel
theorem test_a2off_ignores_d : respond { word := 0x15, a := 0x42B40000, d := 0x7FC00000 } = some ⟨0x00, 0x133⟩ := by
  decide +kernel
theorem test_setch_channel_before_angle : respond { word := 0x00001001, a := 0x7FC00000 } = some ⟨0x01, 0⟩ := by
  decide +kernel
theorem frameOf_lastChannel : frameOf lastHeld.cmd = some lastHeld.frame := by decide +kernel
theorem frameOf_setall : ∃ f, frameOf (.setall (Vector.replicate 16 0)) = some f :=
  Option.isSome_iff_exists.mp (by decide +kernel)
theorem test_setch_frame (es : List Event) : step (offering lastChannel es) = .next (inFlight es) := by
  have hc : frameOne 15 (offCount 0x42B40000) = lastHeld.frame := by decide +kernel
  have ha : isFinite32 0x42B40000 = true := by decide +kernel
  have hx := step_of_command (s := offering lastChannel es) (c := lastChannel) (cs := []) rfl rfl
  rw [hx]
  show execSetch 15 0x42B40000 _ = _
  rw [execSetch, if_neg (by decide), if_pos ha, hc]
  rfl
theorem test_setall_bad_angle :
    respond { word := 0x02, ang := (Vector.replicate 16 0).set 15 0xFF800000 } = some ⟨0x04, 0⟩ := by decide +kernel
theorem test_setall_frame :
    (after (offering { word := 0x02, ang := (Vector.replicate 16 0).set 15 0x43160000 } [])).bus.map (·.frame.drop 57) =
      [[0x00, 0x00, 0x66, 0x00, 0x00, 0x00, 0xBB, 0x01]] := by decide +kernel
theorem test_illegal_command : respond { word := 0x00011001, a := 0x7FC00000 } = some ⟨0x03, 0⟩ := by decide +kernel

/-! ### Answers, reset, other agents -/

theorem test_success_writes_window :
    (after (inFlight [.answer .success])).treg = [(0, 0x20), (0x42, 0x00), (0x43, 0x00), (0x44, 0x33), (0x45, 0x01)] := by
  decide +kernel
/-- Another agent's write of MODE1 that keeps AUTOINC 1 leaves R45 its effect. -/
theorem test_success_after_mode1_write :
    (after (after (inFlight [.busWrite 0x00 0xA1, .answer .success]))).treg.lookup 0x44 = some 0x33 := by decide +kernel
theorem test_failure_code : (after (inFlight [.answer .failure])).rsp = some ⟨0x02, 0⟩ := by decide +kernel
theorem test_failure_leaves_free_bytes :
    (after (inFlight [.answer .failure])).treg.lookup 0x44 = some (Config.freeByte 2) := rfl
theorem test_reset_in_xmit :
    (after (inFlight [.reset])).phase = .idle ∧ (after (inFlight [.reset])).rsp = none ∧
    (after (inFlight [.reset])).treg.lookup 0x42 = some (Config.freeByte 0) := ⟨rfl, rfl, rfl⟩
theorem test_stray_answer_stops :
    step { start with events := [.answer .success] } = .fault .answerWithoutFrame := rfl
theorem test_lifecycle_sets_autoinc :
    autoInc (after { start with treg := [], events := [.busWrite mode1 (lifecycleMode1 0x11)] }).treg = true := by
  decide +kernel
theorem test_fetch_word_runs_first :
    (after (State.reset.withFetchWord 32 0x15)).rsp = some ⟨0x00, 0x66⟩ := by decide +kernel
theorem test_waits_in_idle : after start = start := rfl

/-! ### Assembler (R68, R69) -/

theorem test_assemble_decimal : angleOperand (.decimal false 2 1) = some 0x3E4CCCCD := by decide +kernel
theorem test_setjoint_stops_on_error : setJointSecond 3 ⟨0x04, 0⟩ = none := by decide
theorem test_setjoint_goes_on : setJointSecond 3 ⟨0x00, 0x41F00000⟩ = some (.setch 3 0x41F00000) := by decide

/-! ### Witnesses: the hypotheses of each statement can be met, each clause at a boundary of its range -/

/-- SETALL with all angles 90.0. -/
def allSame : Command := { word := 0x00000002, ang := Vector.replicate 16 0x42B40000 }

theorem witness_DecodeFollowsOpcodeMap :
    wordWellFormed 0x0000FF01 = true ∧ decode { word := 0x0000FF01 } = .instr (.setch 255 0) ∧
    (∃ r ∈ opcodeMap, r.selects 0x0000FF01 = true) := by decide

theorem witness_EncodeOfDecodeKeepsTheWord :
    decode { word := 0x00030014, ang := Vector.replicate 16 1 } = .instr (.cond true .shank 0 0) := by decide

theorem witness_UnusedOperandsAreIgnored :
    ∃ c c' : Command, c ≠ c' ∧ c.word = c'.word ∧
      (opField c.word ∈ [0x01#8, 0x10, 0x11, 0x12, 0x13, 0x14, 0x15] → c.a = c'.a) ∧
      (opField c.word ∈ [0x11#8, 0x14] → c.d = c'.d) ∧ (opField c.word = 0x02 → c.ang = c'.ang) :=
  ⟨{ word := 0x15, a := 1, d := 2 }, { word := 0x15, a := 1, d := 3 }, by decide, rfl, by decide, by decide, by decide⟩

theorem witness_AssemblerLines : ([] : List Token).length ≠ 16 := by decide

theorem witness_StepRunsDecodedCommand :
    (offering lastChannel []).phase = .idle ∧ (offering lastChannel []).port = [lastChannel] ∧
    decode lastChannel = .instr (.setch 15 0x42B40000) := by decide

theorem witness_IllegalWordAnswersIllegalCommand :
    (offering { word := 0x16 } []).phase = .idle ∧ (offering { word := 0x16 } []).port = [{ word := 0x16 }] ∧
    wordWellFormed 0x16 = false := by decide

theorem witness_OnlyAStrayAnswerStopsTheMachine :
    step { start with events := [.answer .failure] } = .fault .answerWithoutFrame := rfl

theorem witness_XmitAcceptsNoCommand :
    (inFlight [.offer lastChannel]).phase = .xmit lastHeld ∧
    step (inFlight [.offer lastChannel]) = .next (after (inFlight [.offer lastChannel])) := ⟨by decide +kernel, rfl⟩

theorem witness_OfferJoinsThePort_idle :
    let s : State := { start with events := [.offer lastChannel] }
    s.phase = .idle ∧ s.port = [] ∧ s.events = [.offer lastChannel] := by decide

theorem witness_OfferJoinsThePort_xmit :
    let s : State := { inFlight [.offer lastChannel] with port := [allSame] }
    s.phase = .xmit lastHeld ∧ s.port = [allSame] ∧ s.events = [.offer lastChannel] := by decide

theorem witness_WaitsForTheTransport : (inFlight []).phase = .xmit lastHeld ∧ (inFlight []).events = [] :=
  ⟨by decide +kernel, rfl⟩

theorem witness_OneResponsePerCommand_pure :
    (offering { word := 0x15 } []).phase = .idle ∧ (offering { word := 0x15 } []).port = [{ word := 0x15 }] ∧
    step (offering { word := 0x15 } []) = .next (after (offering { word := 0x15 } [])) := ⟨rfl, rfl, rfl⟩

theorem witness_OneResponsePerCommand_answer :
    (inFlight [.answer .failure]).phase = .xmit lastHeld ∧ (inFlight [.answer .failure]).events = [.answer .failure] :=
  ⟨by decide +kernel, rfl⟩

theorem witness_TakingTheResponseClearsIt :
    let s : State := { start with rsp := some ⟨0x00, 0⟩, events := [.takeResponse] }
    (s.phase = .idle → s.port = []) ∧ s.events = [.takeResponse] := by decide

theorem witness_ResetInIdle :
    let s : State := { start with rsp := some ⟨0x00, 0⟩, events := [.reset] }
    s.phase = .idle ∧ s.port = [] ∧ s.events = [.reset] := by decide

theorem witness_ResetInXmit :
    (inFlight [.reset]).phase = .xmit lastHeld ∧ lastHeld.frame = 0x42 :: [0x00, 0x00, 0x33, 0x01] ∧
    (inFlight [.reset]).events = [.reset] := ⟨by decide +kernel, rfl, rfl⟩

theorem witness_FramesHaveTwoShapes :
    (∃ f, frameOf (.setch 15 0x42B40000) = some f) ∧ (∃ f, frameOf (.setall (Vector.replicate 16 0)) = some f) :=
  ⟨⟨_, frameOf_lastChannel⟩, frameOf_setall⟩

theorem witness_SuccessWritesTheFrame :
    (inFlight [.answer .success]).phase = .xmit lastHeld ∧ lastHeld.frame = 0x42 :: [0x00, 0x00, 0x33, 0x01] ∧
    (inFlight [.answer .success]).events = [.answer .success] ∧
    ((inFlight [.answer .success]).treg.read 0x00).getLsbD 5 = true := by decide +kernel

/-- The frame after another agent wrote MODE1, AUTOINC still 1, and the window's last register. -/
theorem witness_SuccessWritesTheFrame_foreign :
    let s := after (after (inFlight [.busWrite 0x45 0x77, .busWrite 0x00 0xA1, .answer .success]))
    s.phase = .xmit { lastHeld with foreign := [0x00, 0x45] } ∧ s.events = [.answer .success] ∧
    (s.treg.read 0x00).getLsbD 5 = true ∧
    0x42 + BitVec.ofNat 8 0 ∉ [0x00#8, 0x45] ∧ 0x42 + BitVec.ofNat 8 3 ∈ [0x00#8, 0x45] := by decide +kernel

theorem witness_SuccessWithoutAutoIncrement :
    let s : State := { inFlight [.answer .success] with treg := [(0, 0xDF)] }
    s.phase = .xmit lastHeld ∧ s.events = [.answer .success] ∧ (s.treg.read 0x00).getLsbD 5 = false := by
  decide +kernel

theorem witness_FailureLeavesTheFrameUnknown :
    (inFlight [.answer .failure]).phase = .xmit lastHeld ∧
    (inFlight [.answer .failure]).events = [.answer .failure] := by decide +kernel

theorem witness_ContendedRegistersAreUnconstrained :
    let h : Held := { lastHeld with foreign := [0x45] }
    h.frame = 0x42 :: [0x00, 0x00, 0x33, 0x01] ∧ 0x42 + BitVec.ofNat 8 3 ∈ h.foreign ∧
    (after (inFlight [.busWrite 0x45 0x77, .answer .success])).phase = .xmit h := by decide +kernel

theorem witness_ForeignWriteReachesOneRegister_idle :
    let s : State := { start with events := [.busWrite 0x00 0xA1] }
    s.phase = .idle ∧ s.port = [] ∧ s.events = [.busWrite 0x00 0xA1] := by decide

theorem witness_ForeignWriteReachesOneRegister_xmit :
    (inFlight [.busWrite 0x45 0x77]).phase = .xmit lastHeld ∧ (0x45 : Byte) ∈ addressed lastHeld.frame ∧
    (0x46 : Byte) ∉ addressed lastHeld.frame := by decide +kernel

theorem witness_SetchHandsOverItsFrame : (15 : Byte).toNat < 16 ∧ isFinite32 0x7F7FFFFF = true := by decide +kernel
theorem witness_SetchRejectsTheChannel : 16 ≤ (16 : Byte).toNat ∧ 16 ≤ (255 : Byte).toNat := by decide
theorem witness_SetchRejectsTheAngle : (0 : Byte).toNat < 16 ∧ isFinite32 0x7F800000 = false := by decide +kernel

theorem witness_SetallHandsOverItsFrame :
    ∀ i : Fin 16, isFinite32 (Vector.replicate 16 (0x42B40000 : Word))[i] = true := by decide +kernel

theorem witness_SetallRejectsAnyBadAngle :
    isFinite32 ((Vector.replicate 16 (0 : Word)).set 15 0xFF800000)[(15 : Fin 16)] = false := by decide +kernel

theorem witness_A2offAnswersTheCount : isFinite32 0x7F7FFFFF = true ∧ isFinite32 0x7F800000 = false := by decide +kernel

theorem witness_SetchProgramsItsWindow :
    let s := offering lastChannel [.answer .success]
    s.phase = .idle ∧ s.port = [lastChannel] ∧ s.events = [.answer .success] ∧
    decode lastChannel = .instr (.setch 15 0x42B40000) ∧ (15 : Byte).toNat < 16 ∧ isFinite32 0x42B40000 = true ∧
    (s.treg.read 0x00).getLsbD 5 = true := by decide +kernel

theorem witness_SetallProgramsEveryWindow :
    let s := offering allSame [.answer .success]
    s.phase = .idle ∧ s.port = [allSame] ∧ s.events = [.answer .success] ∧
    decode allSame = .instr (.setall allSame.ang) ∧ (∀ i : Fin 16, isFinite32 allSame.ang[i] = true) ∧
    (s.treg.read 0x00).getLsbD 5 = true := by decide +kernel

theorem witness_ReissueRestoresTheWindow_setch :
    let s : State := { start with
      port := [lastChannel, lastChannel, allSame], events := [.answer .failure, .answer .success, .reset] }
    s.phase = .idle ∧ s.port = lastChannel :: lastChannel :: [allSame] ∧
    s.events = .answer .failure :: .answer .success :: [.reset] ∧ (s.treg.read 0x00).getLsbD 5 = true ∧
    decode lastChannel = .instr (.setch 15 0x42B40000) ∧ (15 : Byte).toNat < 16 ∧ isFinite32 0x42B40000 = true := by
  decide +kernel

theorem witness_ReissueRestoresTheWindow_setall :
    let s : State := { start with port := [allSame, allSame], events := [.reset, .answer .success] }
    s.phase = .idle ∧ s.port = allSame :: allSame :: [] ∧ s.events = .reset :: .answer .success :: [] ∧
    (s.treg.read 0x00).getLsbD 5 = true ∧ decode allSame = .instr (.setall allSame.ang) ∧
    (∀ i : Fin 16, isFinite32 allSame.ang[i] = true) := by decide +kernel

/-- 2^53 + 1 lies midway between 2^53 and 2^53 + 2, both with 53-bit significands. -/
theorem witness_MapRoundsToNearest :
    ((2 ^ 53 + 2 : Nat) : Int).natAbs = (2 ^ 52 + 1) * 2 ^ 1 ∧ (2 ^ 52 + 1 : Nat) < 2 ^ 53 ∧
    (fl64 (2 ^ 53 + 1) - (2 ^ 53 + 1)).natAbs = ((2 ^ 53 + 2 : Int) - (2 ^ 53 + 1)).natAbs ∧
    (2 ^ 53 + 2 : Int) ≠ fl64 (2 ^ 53 + 1) := by decide +kernel

theorem witness_TicksAreMonotone :
    isFinite32 0xFF7FFFFF = true ∧ isFinite32 0x7F7FFFFF = true ∧ value32 0xFF7FFFFF ≤ value32 0x7F7FFFFF := by
  decide +kernel

theorem witness_CountIsMeaningfulExactlyInTheDomain_inside :
    isFinite32 0xC235E5E7 = true ∧ 0 ≤ mapTicks 0xC235E5E7 + 102 ∧ mapTicks 0x44DB53A0 + 102 ≤ 4095 := by decide +kernel

theorem witness_CountIsMeaningfulExactlyInTheDomain_outside :
    mapTicks 0xC235E5E8 + 102 < 0 ∧ 4095 < mapTicks 0x44DB53A1 + 102 := by decide +kernel

theorem e1_limitsInDomain : limitsInDomain e1.limits := by
  refine ⟨⟨?_, ?_, ?_⟩, ⟨?_, ?_, ?_⟩, ⟨?_, ?_, ?_⟩, ⟨?_, ?_, ?_⟩⟩ <;> decide +kernel

theorem witness_ClampedAnglesSendMeaningfulCounts :
    limitsInDomain start.config.limits ∧ isFinite32 0x7F7FFFFF = true ∧ (15 : Byte).toNat < 16 :=
  ⟨e1_limitsInDomain, by decide +kernel, by decide⟩

theorem witness_MirrorAnswers : isFinite32 0xFF7FFFFF = true ∧ isFinite32 0xFFFFFFFF = false := by decide +kernel

theorem witness_OffsetAnswers :
    (isFinite32 0x42B40000 = true ∧ isFinite32 0x40A00000 = true ∧ isFinite32 (add32 0x42B40000 0x40A00000) = true) ∧
    isFinite32 (add32 0x7F7FFFFF 0x7F7FFFFF) = false ∧ isFinite32 0x7FC00000 = false := by decide +kernel

theorem witness_ClampsAnswer : isFinite32 0x42B40000 = true ∧ isFinite32 0x7FC00000 = false := by decide +kernel

theorem witness_CondAnswers :
    (isFinite32 0x43480000 = true ∧ isFinite32 0x40A00000 = true ∧
      isFinite32 (add32 (sub32 0x43340000 0x43480000) 0x40A00000) = true) ∧
    isFinite32 (add32 0x7F7FFFFF 0x7F7FFFFF) = false := by decide +kernel

/-- 2^24 + 1 lies midway between the binary32 numbers 2^24 and 2^24 + 2. -/
theorem witness_SumsRoundToNearestEven :
    isFinite32 0x4B800000 = true ∧ isFinite32 0x3F800000 = true ∧ isFinite32 0x4B800001 = true ∧
    isFinite32 (add32 0x4B800000 0x3F800000) = true ∧
    (value32 (add32 0x4B800000 0x3F800000) - (value32 0x4B800000 + value32 0x3F800000)).natAbs =
      (value32 0x4B800001 - (value32 0x4B800000 + value32 0x3F800000)).natAbs ∧
    value32 0x4B800001 ≠ value32 (add32 0x4B800000 0x3F800000) := by decide +kernel

theorem witness_ZeroSumsTakeTheIeeeSign :
    value32 0x80000000 + value32 0x80000000 = 0 ∧ value32 0x40A00000 + value32 0xC0A00000 = 0 := by decide +kernel

theorem witness_OverflowThreshold : isFinite32 0x7F7FFFFF = true ∧ isFinite32 0x73000000 = true ∧
    (2 ^ 128 - 2 ^ 103) * 2 ^ 149 = (value32 0x7F7FFFFF + value32 0x73000000).natAbs := by decide +kernel

theorem witness_MirrorStaysFinite : isFinite32 0xFF7FFFFF = true := by decide +kernel

theorem witness_AnsweredAnglesAreFinite :
    returnsAngle (.clampt 0x43200000) = true ∧
    (after (offering { word := 0x12, a := 0x43200000 } [])).rsp = some ⟨0x00, 0x43160000⟩ := by decide +kernel

theorem witness_ClampLaws :
    e1.limits.wellFormed = true ∧ value32 e1.limits.maxT ≤ value32 0x43160000 ∧
    value32 0x41F00000 ≤ value32 e1.limits.minT ∧ value32 0x41A00000 ≤ value32 e1.limits.minS := by decide +kernel

theorem witness_MirrorTwiceWhereExact :
    value32 (mirrorAngle 0x42B40000) = value32 0x43340000 - value32 0x42B40000 ∧
    value32 (mirrorAngle 0x80000000) = value32 0x43340000 - value32 0x80000000 := by decide +kernel

theorem witness_MirrorIsExactOnItsRanges :
    (90 * 2 ^ 149 ≤ value32 0x42B40000 ∧ value32 0x43B40000 ≤ 360 * 2 ^ 149) ∧
    (value32 0x37800000 % 2 ^ 133 = 0 ∧ -76 * 2 ^ 149 < value32 0x37800000 ∧ value32 0x37800000 < 436 * 2 ^ 149) := by
  decide +kernel

theorem witness_PureCommandsOnlyAnswer : isPure (.a2off 0) = true ∧ start.config = (offering lastChannel []).config := by
  decide +kernel

theorem witness_FrameContentLaw :
    (∃ f, frameOf (.setch 15 0x42B40000) = some f) ∧ ∃ f, frameOf (.setall (Vector.replicate 16 0)) = some f :=
  ⟨⟨_, frameOf_lastChannel⟩, frameOf_setall⟩

theorem witness_ConfigurationNeverChanges : step start = .next start := rfl

/-- A state with a frame in flight meets the invariant. -/
theorem inFlight_inv (es : List Event) : (inFlight es).Inv where
  registers := (by decide : Memory.wf [(0, 0x20)])
  quiet := fun _ _ => rfl
  held := fun h e => by
    have e : Phase.xmit lastHeld = .xmit h := e
    cases e
    exact ⟨frameOf_lastChannel, rfl⟩
  shown := fun r hr => nomatch hr
  legal := fun r hr => nomatch hr
  frames := fun x hx => by
    have e := List.mem_singleton.mp (show x ∈ [_] from hx)
    subst e
    exact ⟨lastHeld.cmd, frameOf_lastChannel⟩

theorem witness_OnlyTheWindowsAreWritten :
    (inFlight [.answer .failure]).Inv ∧
    step (inFlight [.answer .failure]) = .next (after (inFlight [.answer .failure])) ∧
    ¬ inWindows 0x05 ∧ ¬ inWindows 0x46 :=
  ⟨inFlight_inv _, rfl, by unfold inWindows; decide, by unfold inWindows; decide⟩

theorem witness_StepKeepsTheInvariant :
    (inFlight [.reset]).Inv ∧ step (inFlight [.reset]) = .next (after (inFlight [.reset])) := ⟨inFlight_inv _, rfl⟩

end Sys2Proof.Tests
end

namespace Sys2Proof.Machine

/-! ### What stops the machine -/

/-- A choice between two next states is a next state. -/
theorem exists_next_ite {p : Prop} [Decidable p] {a b : Host.Outcome State Fault Refusal}
    (ha : ∃ t, a = .next t) (hb : ∃ t, b = .next t) : ∃ t, (if p then a else b) = .next t := by
  split
  · exact ha
  · exact hb

/-- Every command completes (10_state.md R23): each branch of its checks ends in a next state. -/
theorem exec_next (i : Instr) (s : State) : ∃ t, exec i s = .next t := by
  cases i with
  | setch ch a => exact exists_next_ite ⟨_, rfl⟩ (exists_next_ite ⟨_, rfl⟩ ⟨_, rfl⟩)
  | setall ang => exact exists_next_ite ⟨_, rfl⟩ ⟨_, rfl⟩
  | mirror a => exact exists_next_ite ⟨_, rfl⟩ ⟨_, rfl⟩
  | offset a d => exact exists_next_ite ⟨_, rfl⟩ ⟨_, rfl⟩
  | clampt a => exact exists_next_ite ⟨_, rfl⟩ ⟨_, rfl⟩
  | clamps a => exact exists_next_ite ⟨_, rfl⟩ ⟨_, rfl⟩
  | cond mir cls a d => exact exists_next_ite (exists_next_ite ⟨_, rfl⟩ ⟨_, rfl⟩) ⟨_, rfl⟩
  | a2off a => exact exists_next_ite ⟨_, rfl⟩ ⟨_, rfl⟩

/-- Every command record is answered or run, also one whose word no row selects (60_exceptions.md R121). -/
theorem accept_next (c : Command) (s : State) : ∃ t, accept c s = .next t := by
  unfold accept
  split
  · exact exec_next _ s
  · exact ⟨_, rfl⟩

/-- With nothing to accept and no event to come, the step waits (70_reset_and_hazards.md R151). -/
theorem step_of_no_event {s : State} (hno : s.phase = .idle → s.port = []) (he : s.events = []) :
    step s = .next s := by
  unfold step sequencerStep
  split
  · rename_i hp hq
    rw [hno hp] at hq
    cases hq
  · simp only [environmentMove, he]

/-- The only event without a next state is an answer that finds no frame in flight (log 6). -/
theorem deliver_next_or_stray (e : Event) (s : State) :
    (∃ t, deliver e s = .next t) ∨
    (deliver e s = .fault .answerWithoutFrame ∧ s.phase = .idle ∧ ∃ x, e = .answer x) := by
  cases e with
  | offer c => exact .inl ⟨_, rfl⟩
  | answer x =>
    cases hp : s.phase with
    | idle => exact .inr ⟨by simp only [deliver, receiveAnswer, hp], rfl, x, rfl⟩
    | xmit h => exact .inl ⟨complete x h s, by simp only [deliver, receiveAnswer, hp]⟩
  | takeResponse => exact .inl ⟨_, rfl⟩
  | reset => exact .inl ⟨_, rfl⟩
  | busWrite a d => exact .inl ⟨_, rfl⟩

/-- Settles O10: a command is always answered or run, waiting changes nothing, and of the events only the stray answer has no
next state. -/
theorem onlyAStrayAnswerStopsTheMachine : Obligations.OnlyAStrayAnswerStopsTheMachine := by
  intro s
  by_cases hno : s.phase = .idle → s.port = []
  · cases he : s.events with
    | nil => exact .inl ⟨s, step_of_no_event hno he⟩
    | cons e es =>
      rw [step_of_event hno he]
      rcases deliver_next_or_stray e { s with events := es } with h | ⟨h, hp, x, rfl⟩
      · exact .inl h
      · exact .inr ⟨h, hp, hno hp, x, es, rfl⟩
  · obtain ⟨hp, hq⟩ := Classical.not_imp.1 hno
    obtain ⟨c, cs, hq⟩ := List.exists_cons_of_ne_nil hq
    rw [step_of_command hp hq]
    exact .inl (accept_next c _)

/-! ### Rounding a signed value -/

/-- `v` rounded to `p` significant digits, sign kept: what `fl64` and `roundValue` have in common. -/
def roundSigned (p : Nat) (v : Int) : Int := if v < 0 then -(roundSig p v.natAbs : Int) else roundSig p v.natAbs

theorem fl64_eq_roundSigned (v : Int) : fl64 v = roundSigned 53 v := rfl

theorem roundValue_eq_roundSigned (v : Int) : roundValue v = roundSigned 24 v := rfl

@[simp] theorem natAbs_roundSigned (p : Nat) (v : Int) : (roundSigned p v).natAbs = roundSig p v.natAbs := by
  unfold roundSigned; split <;> simp

/-- Rounding moves the magnitude only. -/
theorem natAbs_roundSigned_sub (p : Nat) (v : Int) :
    (roundSigned p v - v).natAbs = ((roundSig p v.natAbs : Int) - v.natAbs).natAbs := by
  unfold roundSigned; split <;> omega

/-- No number `m * 2^e` with `m < 2^p`, of either sign, is nearer to `v` than the rounded `v`; where another one is equally near,
the rounded significand is even (00_scope.md R10). -/
theorem roundSigned_nearest {p m e : Nat} {v z : Int} (hp : 0 < p) (hm : m < 2 ^ p) (hz : z.natAbs = m * 2 ^ e) :
    (roundSigned p v - v).natAbs ≤ (z - v).natAbs ∧
    ((roundSigned p v - v).natAbs = (z - v).natAbs → z ≠ roundSigned p v →
      roundQuot v.natAbs (excess p v.natAbs) % 2 = 0) := by
  obtain ⟨hle, heven⟩ := roundSig_nearest (n := v.natAbs) (e := e) hp hm
  have hzero := (roundSig_nearest (n := v.natAbs) (m := 0) (e := 0) hp (Nat.two_pow_pos p)).1
  rw [natAbs_roundSigned_sub]
  rw [← hz] at hle heven
  by_cases hs : (v < 0 ∧ z ≤ 0) ∨ (0 ≤ v ∧ 0 ≤ z)
  · -- on the side of `v` the distance is that of the magnitudes
    have hd : (z - v).natAbs = ((z.natAbs : Int) - v.natAbs).natAbs := by omega
    rw [hd]
    refine ⟨hle, fun h hne => (heven h fun h' => hne ?_).2⟩
    unfold roundSigned
    split <;> omega
  · -- on the other side of 0 it is more than the distance of 0
    have hd : v.natAbs < (z - v).natAbs := by omega
    exact ⟨by omega, fun h => by omega⟩

/-- A rounded magnitude has a significand below `2^p`, with its top digit wherever digits were dropped; a carry to `2^p` is taken
up by the exponent, and leaves the significand even. -/
theorem roundSig_significand {p : Nat} (hp : 2 ≤ p) (n : Nat) :
    ∃ m e, m < 2 ^ p ∧ (e = 0 ∨ 2 ^ (p - 1) ≤ m) ∧ roundSig p n = m * 2 ^ e ∧
      (roundQuot n (excess p n) % 2 = 0 → m % 2 = 0) := by
  by_cases hl : bitLen n < p
  · have hn : n < 2 ^ p := Nat.lt_of_lt_of_le (lt_two_pow_bitLen n) (Nat.pow_le_pow_right (by decide) (Nat.le_of_lt hl))
    exact ⟨n, 0, hn, .inl rfl, by simp [roundSig_of_lt hn], by simp [excess_of_lt hn]⟩
  · obtain ⟨hlo, hhi⟩ := roundQuot_range (n := n) (by omega : 0 < p) (by omega)
    rcases Nat.lt_or_eq_of_le hhi with hlt | hcarry
    · exact ⟨roundQuot n (excess p n), excess p n, hlt, .inr hlo, rfl, id⟩
    · obtain ⟨k, rfl⟩ : ∃ k, p = k + 2 := ⟨p - 2, by omega⟩
      refine ⟨2 ^ (k + 1), excess (k + 2) n + 1, Nat.pow_lt_pow_right (by decide) (by omega), .inr (Nat.le_refl _),
        ?_, fun _ => ?_⟩
      · rw [roundSig, hcarry, ← Nat.pow_add, ← Nat.pow_add]
        congr 1
        omega
      · rw [Nat.pow_succ]
        omega

/-- Settles O36: the significand of the rounded magnitude, and its nearness for either sign. -/
theorem mapRoundsToNearest : Obligations.MapRoundsToNearest := by
  intro v
  obtain ⟨m, e, hm, htop, hv, heven⟩ := roundSig_significand (p := 53) (by decide) v.natAbs
  rw [fl64_eq_roundSigned]
  refine ⟨m, e, hm, htop, (natAbs_roundSigned 53 v).trans hv, fun z m' e' hm' hz => ?_⟩
  obtain ⟨hnear, htie⟩ := roundSigned_nearest (v := v) (by decide) hm' hz
  exact ⟨hnear, fun h hne => heven (htie h hne)⟩

/-! ### binary32 sums -/

/-- Every magnitude is a significand of at most 24 digits times a power of two (30_encoding.md R61). -/
theorem magnitude32_significand (w : Word) : ∃ m e, m < 2 ^ 24 ∧ magnitude32 w = m * 2 ^ e := by
  have hf := fraction32_lt w
  unfold magnitude32
  split
  · exact ⟨fraction32 w, 0, by omega, by simp⟩
  · exact ⟨2 ^ 23 + fraction32 w, exponent32 w - 1, by omega, rfl⟩

/-- Below infinity, the last bit of an encoding is the last bit of the rounded significand. -/
theorem encode32_mod_two {n : Nat} (h : encode32 n < 0x7F800000) :
    encode32 n % 2 = roundQuot n (excess 24 n) % 2 := by
  unfold encode32 at h ⊢
  omega

/-- The last bit of a packed word is the last bit of its low 31 bits. -/
theorem pack32_mod_two (neg : Bool) {b : Nat} (h : b < 2 ^ 31) : (pack32 neg b).toNat % 2 = b % 2 := by
  rw [toNat_pack32 neg h]
  cases neg <;> simp only [Bool.false_eq_true, if_false, if_true] <;> omega

/-- The last bit of a finite sum is the last bit of the exact sum's rounded significand. -/
theorem add32_mod_two {x y : Word} (h : isFinite32 (add32 x y) = true) :
    (add32 x y).toNat % 2 =
      roundQuot (value32 x + value32 y).natAbs (excess 24 (value32 x + value32 y).natAbs) % 2 := by
  rw [isFinite32_add32, decide_eq_true_eq] at h
  unfold add32
  dsimp only
  split
  · rename_i h0
    rw [pack32_mod_two _ (by decide), h0]
    simp [excess_of_lt]
  · rw [round32, pack32_mod_two _ (by omega), encode32_mod_two h]

/-- Settles O46: a finite sum is the exact sum rounded to 24 significant digits, and every binary32 number has no more. -/
theorem sumsRoundToNearestEven : Obligations.SumsRoundToNearestEven := by
  intro x y z _ _ _ hsum
  obtain ⟨m, e, hm, hz⟩ := magnitude32_significand z
  rw [← natAbs_value32] at hz
  dsimp only
  rw [value32_add32 hsum, roundValue_eq_roundSigned, add32_mod_two hsum]
  exact roundSigned_nearest (by decide) hm hz

end Sys2Proof.Machine

namespace Sys2Proof.Machine

/-! ### Accepting a command and taking the transport's answer -/

/-- An OK response is legal with any value (10_state.md R22, 60_exceptions.md R120). -/
theorem legalResponse_ok (v : Word) : legalResponse ⟨resultByte .ok, v⟩ := ⟨⟨.ok, rfl⟩, fun h => absurd rfl h⟩

/-- A response with VAL 0 is legal with any code (60_exceptions.md R120, R126). -/
theorem legalResponse_zero (c : ResultCode) : legalResponse ⟨resultByte c, 0⟩ := ⟨⟨c, rfl⟩, fun _ => rfl⟩

/-- Accepting a command presents one legal response or hands over one command's frame, and does nothing else
(10_state.md R22, R23). -/
theorem accept_presents_or_transmits {c : Command} {s t : State} (h : accept c s = .next t) :
    (∃ r, legalResponse r ∧ t = present r s) ∨ (∃ i f, frameOf i = some f ∧ t = transmit i f s) := by
  rcases accept_cases h with ⟨i, -, hi⟩ | ⟨-, -, rfl⟩
  · rcases exec_cases hi with ⟨v, -, rfl⟩ | ⟨code, -, rfl⟩ | ⟨f, hf, rfl⟩
    · exact .inl ⟨_, legalResponse_ok v, rfl⟩
    · exact .inl ⟨_, legalResponse_zero code, rfl⟩
    · exact .inr ⟨i, f, hf, rfl⟩
  · exact .inl ⟨_, legalResponse_zero .illegalCommand, rfl⟩

/-- A command whose word decodes is accepted by running it. -/
theorem accept_of_instr {c : Command} {i : Instr} (h : decode c = .instr i) (s : State) : accept c s = exec i s := by
  simp only [accept, h]

/-- An answer with a frame in flight completes that frame (10_state.md R23). -/
theorem deliver_answer_of_xmit {s : State} {held : Held} (hp : s.phase = .xmit held) (x : Status) :
    deliver (.answer x) s = .next (complete x held s) := by
  simp only [deliver, receiveAnswer, hp]

/-- Settles O9: each branch of each command's checks ends in a next state. -/
theorem everyCommandAnswersANextState : Obligations.EveryCommandAnswersANextState := exec_next

/-- Settles O7: the step accepts the command, and accepting a decoded command runs it. -/
theorem stepRunsDecodedCommand : Obligations.StepRunsDecodedCommand := by
  intro s c cs i hp hq hd
  rw [step_of_command hp hq, accept_of_instr hd]

/-- Settles O14: what accepting can do, and what `complete` does to the response port and its record. -/
theorem oneResponsePerCommand : Obligations.OneResponsePerCommand := by
  refine ⟨fun s t c cs hp hq hstep => ?_, fun s held x es hp he => ?_⟩
  · rw [step_of_command hp hq] at hstep
    rcases accept_presents_or_transmits hstep with ⟨r, -, rfl⟩ | ⟨i, f, -, rfl⟩
    · exact .inl ⟨r, hp, rfl, rfl, rfl⟩
    · exact .inr ⟨_, _, rfl, rfl, rfl, rfl, rfl⟩
  · have hbusy : s.phase = .idle → s.port = [] := fun hi => nomatch hp.symm.trans hi
    rw [step_of_event hbusy he, deliver_answer_of_xmit (s := { s with events := es }) hp]
    exact ⟨_, _, rfl, rfl, rfl, rfl, rfl⟩

/-! ### Decoding reads the operand fields of its row only -/

/-- Settles O5: row by row of the opcode map, the operand fields that the row uses agree. -/
theorem unusedOperandsAreIgnored : Obligations.UnusedOperandsAreIgnored := by
  rintro ⟨w, a, d, ang⟩ ⟨w', a', d', ang'⟩ hw ha hd hang
  obtain rfl : w = w' := hw
  unfold decode
  refine ite_congr rfl (fun hop => ?setch) fun _ => ite_congr rfl (fun hop => ?setall) fun _ =>
    ite_congr rfl (fun hop => ?mirror) fun _ => ite_congr rfl (fun hop => ?offset) fun _ =>
    ite_congr rfl (fun hop => ?clampt) fun _ => ite_congr rfl (fun hop => ?clamps) fun _ =>
    ite_congr rfl (fun hop => ?cond) fun _ => ite_congr rfl (fun hop => ?a2off) fun _ => rfl
  case setall => rw [hang hop]
  case offset | cond => rw [ha (by simp [hop]), hd (by simp [hop])]
  case setch | mirror | clampt | clamps | a2off => rw [ha (by simp [hop])]

/-! ### No step changes the configuration -/

theorem accept_config {c : Command} {s t : State} (h : accept c s = .next t) : t.config = s.config := by
  rcases accept_presents_or_transmits h with ⟨r, -, rfl⟩ | ⟨i, f, -, rfl⟩ <;> rfl

theorem deliver_config {e : Event} {s t : State} (h : deliver e s = .next t) : t.config = s.config := by
  rcases deliver_cases h with ⟨c, -, rfl⟩ | ⟨x, held, -, -, rfl⟩ | ⟨-, rfl⟩ | ⟨-, rfl⟩ | ⟨a, d, -, rfl⟩
  · rfl
  · rfl
  · rfl
  · exact resetBlock_config s
  · exact foreignWrite_config a d s

/-- Settles O57: neither accepting a command nor an event changes it. -/
theorem configurationNeverChanges : Obligations.ConfigurationNeverChanges := by
  intro s t h
  rcases step_cases h with ⟨c, cs, -, -, hacc⟩ | ⟨-, ⟨-, rfl⟩ | ⟨e, es, -, hdel⟩⟩
  · exact accept_config (s := { s with port := cs }) hacc
  · rfl
  · exact deliver_config (s := { s with events := es }) hdel

/-! ### While a frame is in flight -/

/-- Another agent's write with a frame in flight adds its register to the record of `foreign` (log 8). -/
theorem foreignWrite_phase_of_xmit {s : State} {held : Held} (hp : s.phase = .xmit held) (a d : Byte) :
    (foreignWrite a d s).phase = .xmit { held with foreign := a :: held.foreign } := by
  simp only [foreignWrite, hp]
  split <;> rfl

theorem foreignWrite_phase_of_idle {s : State} (hp : s.phase = .idle) (a d : Byte) :
    (foreignWrite a d s).phase = .idle := by
  simp only [foreignWrite, hp]

/-- Another agent's write is a write of its register, of the event's byte or a free one. -/
theorem foreignWrite_treg (a d : Byte) (s : State) : ∃ v, (foreignWrite a d s).treg = s.treg.write a v := by
  unfold foreignWrite
  split
  · exact ⟨d, rfl⟩
  · dsimp only
    split
    · exact ⟨_, rfl⟩
    · exact ⟨d, rfl⟩

/-- An event that arrives with a frame in flight takes no command off the port and hands over no frame; it ends the frame or
leaves it and its command held (70_reset_and_hazards.md R146, 60_exceptions.md R127). -/
theorem deliver_of_xmit {e : Event} {s t : State} {held : Held} (hp : s.phase = .xmit held)
    (h : deliver e s = .next t) :
    s.port <+: t.port ∧ t.bus = s.bus ∧
    (t.phase = .idle ∨ ∃ held', t.phase = .xmit held' ∧ held'.cmd = held.cmd ∧ held'.frame = held.frame) := by
  rcases deliver_cases h with ⟨c, -, rfl⟩ | ⟨x, held', -, -, rfl⟩ | ⟨-, rfl⟩ | ⟨-, rfl⟩ | ⟨a, d, -, rfl⟩
  · exact ⟨⟨[c], rfl⟩, rfl, .inr ⟨held, hp, rfl, rfl⟩⟩
  · exact ⟨by simp, rfl, .inl rfl⟩
  · exact ⟨by simp, rfl, .inr ⟨held, hp, rfl, rfl⟩⟩
  · exact ⟨by simp, by simp, .inl (resetBlock_phase s)⟩
  · exact ⟨by simp, by simp, .inr ⟨_, foreignWrite_phase_of_xmit hp a d, rfl, rfl⟩⟩

/-- Settles O11: in XMIT a step waits or delivers an event. -/
theorem xmitAcceptsNoCommand : Obligations.XmitAcceptsNoCommand := by
  intro s t held hp h
  rcases step_cases h with ⟨c, cs, hidle, -, -⟩ | ⟨-, ⟨-, rfl⟩ | ⟨e, es, -, hdel⟩⟩
  · exact nomatch hp.symm.trans hidle
  · exact ⟨by simp, rfl, .inr ⟨held, hp, rfl, rfl⟩⟩
  · exact deliver_of_xmit (s := { s with events := es }) hp hdel

/-! ### The invariant -/

/-- Settles O16: both fields as `State.reset` gives them. -/
theorem resetStateIsIdle : Obligations.ResetStateIsIdle := ⟨rfl, rfl⟩

/-- Settles O59: the state after reset lists no register, holds no frame, and has no record. -/
theorem resetMeetsTheInvariant : Obligations.ResetMeetsTheInvariant where
  registers := ⟨.nil, fun _ hc => nomatch hc⟩
  quiet := fun _ hp => nomatch hp
  held := fun _ hp => nomatch hp
  shown := fun _ hr => nomatch hr
  legal := fun _ hr => nomatch hr
  frames := fun _ hx => nomatch hx

/-- The invariant speaks neither of the commands on offer nor of the events to come. -/
theorem State.Inv.with_queues {s : State} (hs : s.Inv) (port : List Command) (events : List Event) :
    State.Inv { s with port := port, events := events } :=
  { hs with }

theorem State.Inv.without_response {s : State} (hs : s.Inv) : State.Inv { s with rsp := none } :=
  { hs with
    quiet := fun _ _ => rfl
    shown := fun _ hr => nomatch hr }

/-- Presenting a legal response in IDLE keeps the invariant. -/
theorem present_inv {s : State} {r : Response} (hs : s.Inv) (hp : s.phase = .idle) (hr : legalResponse r) :
    (present r s).Inv where
  registers := hs.registers
  quiet := fun _ hx => nomatch hp.symm.trans hx
  held := fun _ hx => nomatch hp.symm.trans hx
  shown := fun r' e => by
    obtain rfl : r = r' := Option.some.inj e
    simp
  legal := fun r' hmem => by
    rcases List.mem_append.1 hmem with hold | hnew
    · exact hs.legal r' hold
    · exact List.mem_singleton.1 hnew ▸ hr
  frames := hs.frames

/-- Handing over a command's frame keeps the invariant. -/
theorem transmit_inv {s : State} {i : Instr} {f : Frame} (hs : s.Inv) (hf : frameOf i = some f) :
    (transmit i f s).Inv where
  registers := hs.registers
  quiet := fun _ _ => rfl
  held := fun h' e => by
    cases e
    exact ⟨hf, by simp⟩
  shown := fun _ hr => nomatch hr
  legal := hs.legal
  frames := fun x hmem => by
    rcases List.mem_append.1 hmem with hold | hnew
    · exact hs.frames x hold
    · exact ⟨i, List.mem_singleton.1 hnew ▸ hf⟩

/-- A frame that leaves the block, landed or not, keeps the invariant. -/
theorem releaseFrame_inv {s : State} (hs : s.Inv) (landed : Bool) (held : Held) : (releaseFrame landed held s).Inv :=
  { hs with
    registers := landFrame_wf hs.registers landed held.foreign s.draws held.frame
    quiet := fun _ hp => nomatch hp
    held := fun _ hp => nomatch hp }

theorem complete_inv {s : State} (hs : s.Inv) (x : Status) (held : Held) : (complete x held s).Inv :=
  present_inv (releaseFrame_inv hs _ held) rfl (legalResponse_zero _)

theorem resetBlock_inv {s : State} (hs : s.Inv) : (resetBlock s).Inv := by
  unfold resetBlock
  split
  · exact hs.without_response
  · exact (releaseFrame_inv hs false _).without_response

/-- Another agent's write keeps the invariant: it changes one register and, of a held frame, only the record of `foreign`. -/
theorem foreignWrite_inv {s : State} (hs : s.Inv) (a d : Byte) : (foreignWrite a d s).Inv := by
  have hheld : ∀ h', (foreignWrite a d s).phase = .xmit h' →
      ∃ h, s.phase = .xmit h ∧ h'.cmd = h.cmd ∧ h'.frame = h.frame := by
    intro h' hx
    cases hp : s.phase with
    | idle => exact nomatch (foreignWrite_phase_of_idle hp a d).symm.trans hx
    | xmit h => cases (foreignWrite_phase_of_xmit hp a d).symm.trans hx; exact ⟨h, rfl, rfl, rfl⟩
  constructor
  case registers =>
    obtain ⟨v, hv⟩ := foreignWrite_treg a d s
    rw [hv]
    exact write_wf hs.registers a v
  case quiet =>
    intro h' hx
    obtain ⟨h, hp, -, -⟩ := hheld h' hx
    simpa using hs.quiet h hp
  case held =>
    intro h' hx
    obtain ⟨h, hp, hcmd, hframe⟩ := hheld h' hx
    simpa [hcmd, hframe] using hs.held h hp
  case shown => simpa using hs.shown
  case legal => simpa using hs.legal
  case frames => simpa using hs.frames

/-- Accepting a command in IDLE keeps the invariant. -/
theorem accept_inv {c : Command} {s t : State} (hs : s.Inv) (hp : s.phase = .idle) (h : accept c s = .next t) :
    t.Inv := by
  rcases accept_presents_or_transmits h with ⟨r, hr, rfl⟩ | ⟨i, f, hf, rfl⟩
  · exact present_inv hs hp hr
  · exact transmit_inv hs hf

/-- Every event keeps the invariant. -/
theorem deliver_inv {e : Event} {s t : State} (hs : s.Inv) (h : deliver e s = .next t) : t.Inv := by
  rcases deliver_cases h with ⟨c, -, rfl⟩ | ⟨x, held, -, -, rfl⟩ | ⟨-, rfl⟩ | ⟨-, rfl⟩ | ⟨a, d, -, rfl⟩
  · exact hs.with_queues _ s.events
  · exact complete_inv hs x held
  · exact hs.without_response
  · exact resetBlock_inv hs
  · exact foreignWrite_inv hs a d

/-- Settles O60: accepting keeps it, waiting changes nothing, and every event keeps it. -/
theorem stepKeepsTheInvariant : Obligations.StepKeepsTheInvariant := by
  intro s t hs h
  rcases step_cases h with ⟨c, cs, hp, -, hacc⟩ | ⟨-, ⟨-, rfl⟩ | ⟨e, es, -, hdel⟩⟩
  · exact accept_inv (hs.with_queues cs s.events) hp hacc
  · exact hs
  · exact deliver_inv (hs.with_queues s.port es) hdel

end Sys2Proof.Machine

namespace Sys2Proof.Machine

/-! ### The channel windows -/

/-- Register `k` of channel `ch`'s window, without wrapping (20_memory.md R41). -/
theorem toNat_channelBase_add {ch k : Nat} (hch : ch < 16) (hk : k < 4) :
    (channelBase ch + BitVec.ofNat 8 k).toNat = 6 + 4 * ch + k := by
  rw [BitVec.toNat_add, toNat_channelBase hch, BitVec.toNat_ofNat]
  omega

/-- Settles O19: register `k` of window `ch` has address `6 + 4 * ch + k`, so division by 4 gives its one channel and offset. -/
theorem windowsTileTheirRange : Obligations.WindowsTileTheirRange := by
  intro b
  have hb := b.isLt
  constructor
  · intro hrange
    refine ⟨⟨(b.toNat - 6) / 4, by omega, (b.toNat - 6) % 4, by omega, BitVec.eq_of_toNat_eq ?_⟩, ?_⟩
    · rw [toNat_channelBase_add (by omega) (by omega)]
      omega
    · intro ch hch k hk ch' hch' k' hk' h h'
      have e := congrArg BitVec.toNat (h.symm.trans h')
      rw [toNat_channelBase_add hch hk, toNat_channelBase_add hch' hk'] at e
      omega
  · rintro ⟨⟨ch, hch, k, hk, rfl⟩, -⟩
    rw [toNat_channelBase_add hch hk]
    omega

/-! ### The frames of the commands -/

/-- An accepted SETCH has the one-channel frame (40_channel_programmer.md R84). -/
theorem frameOf_setch {ch : Byte} {a : Word} (hch : ch.toNat < 16) (ha : isFinite32 a = true) :
    frameOf (.setch ch a) = some (frameOne ch (offCount a)) :=
  if_pos ⟨hch, ha⟩

/-- An accepted SETALL has the all-channel frame (40_channel_programmer.md R85). -/
theorem frameOf_setall {ang : Vector Word 16} (h : ∀ i : Fin 16, isFinite32 ang[i] = true) :
    frameOf (.setall ang) = some (frameAll (ang.toList.map offCount)) := by
  refine if_pos (List.all_eq_true.2 fun a ha => ?_)
  obtain ⟨i, hi, rfl⟩ := List.getElem_of_mem ha
  simpa using h ⟨i, by simpa using hi⟩

/-- Only SETCH and SETALL have a frame (40_channel_programmer.md R84, R85). -/
theorem frameOf_cases {i : Instr} {f : Frame} (h : frameOf i = some f) :
    (∃ ch v, ch.toNat < 16 ∧ f = frameOne ch v) ∨ (∃ vs, vs.length = 16 ∧ f = frameAll vs) := by
  cases i with
  | setch ch a =>
    obtain ⟨hcheck, hf⟩ := Option.ite_none_right_eq_some.1 h
    exact .inl ⟨ch, offCount a, hcheck.1, (Option.some.inj hf).symm⟩
  | setall ang =>
    obtain ⟨-, hf⟩ := Option.ite_none_right_eq_some.1 h
    exact .inr ⟨ang.toList.map offCount, by simp, (Option.some.inj hf).symm⟩
  | mirror | offset | clampt | clamps | cond | a2off => nomatch h

/-- SETCH's frame addresses its channel's window. -/
theorem mem_addressed_frameOne {ch b : Byte} {v : Count} :
    b ∈ addressed (frameOne ch v) ↔ ∃ k < 4, b = channelBase ch.toNat + BitVec.ofNat 8 k :=
  mem_addressRun

/-- Each window gives four data bytes (30_encoding.md R71). -/
theorem flatMap_window_length (vs : List Count) : (vs.flatMap window).length = 4 * vs.length := by
  have := frameAll_length vs
  simp only [frameAll, List.length_cons] at this
  omega

/-- SETALL's frame addresses all the windows, and nothing else. -/
theorem mem_addressed_frameAll {vs : List Count} (h : vs.length = 16) {b : Byte} :
    b ∈ addressed (frameAll vs) ↔ inWindows b := by
  have hlen : (vs.flatMap window).length = 64 := by rw [flatMap_window_length, h]
  have hb := b.isLt
  have haddr : ∀ k < 64, (ledBase + BitVec.ofNat 8 k).toNat = 6 + k := by
    intro k hk
    rw [BitVec.toNat_add, BitVec.toNat_ofNat, show ledBase.toNat = 6 from rfl]
    omega
  simp only [frameAll, addressed, mem_addressRun, hlen, inWindows]
  constructor
  · rintro ⟨k, hk, rfl⟩
    rw [haddr k hk]
    omega
  · intro hrange
    refine ⟨b.toNat - 6, by omega, BitVec.eq_of_toNat_eq ?_⟩
    rw [haddr _ (by omega)]
    omega

theorem inWindows_of_mem_addressed {i : Instr} {f : Frame} (hf : frameOf i = some f) {b : Byte}
    (hb : b ∈ addressed f) : inWindows b := by
  rcases frameOf_cases hf with ⟨ch, v, hch, rfl⟩ | ⟨vs, hlen, rfl⟩
  · obtain ⟨k, hk, rfl⟩ := mem_addressed_frameOne.1 hb
    unfold inWindows
    rw [toNat_channelBase_add hch hk]
    omega
  · exact (mem_addressed_frameAll hlen).1 hb

/-- Settles O20: SETCH's frame is one window after its base, SETALL's is sixteen windows after 0x06. -/
theorem framesHaveTwoShapes : Obligations.FramesHaveTwoShapes := by
  intro i f hf
  refine ⟨?_, fun b hb => inWindows_of_mem_addressed hf hb⟩
  rcases frameOf_cases hf with ⟨ch, v, -, rfl⟩ | ⟨vs, hlen, rfl⟩
  · exact .inl (frameOne_length ch v)
  · exact .inr (by rw [frameAll_length, hlen])

/-! ### Which registers a step can change -/

/-- Accepting a command changes no register: its frame has no effect before the answer (log 23). -/
theorem accept_treg {c : Command} {s t : State} (h : accept c s = .next t) : t.treg = s.treg := by
  rcases accept_presents_or_transmits h with ⟨r, -, rfl⟩ | ⟨i, f, -, rfl⟩ <;> rfl

/-- A frame that leaves the block, landed or not, changes only registers it addresses. -/
theorem read_releaseFrame_other (landed : Bool) (held : Held) (s : State) {b : Byte} (hb : b ∉ addressed held.frame) :
    (releaseFrame landed held s).treg.read b = s.treg.read b :=
  read_landFrame_other landed held.foreign s.draws held.frame s.treg hb

/-- A reset changes only registers that the frame in flight addresses (70_reset_and_hazards.md R141, R142). -/
theorem read_resetBlock_other {s : State} {b : Byte} (hb : ∀ held, s.phase = .xmit held → b ∉ addressed held.frame) :
    (resetBlock s).treg.read b = s.treg.read b := by
  unfold resetBlock
  split
  · rfl
  · rename_i held hp
    exact read_releaseFrame_other false held s (hb held hp)

/-- An event changes only registers that the frame in flight addresses, or the one another agent writes
(20_memory.md R44, 60_exceptions.md R131). -/
theorem read_deliver_other {e : Event} {s t : State} {b : Byte} (h : deliver e s = .next t)
    (hb : ∀ held, s.phase = .xmit held → b ∉ addressed held.frame) :
    t.treg.read b = s.treg.read b ∨ ∃ d, e = .busWrite b d := by
  rcases deliver_cases h with ⟨c, -, rfl⟩ | ⟨x, held, -, hp, rfl⟩ | ⟨-, rfl⟩ | ⟨-, rfl⟩ | ⟨a, d, rfl, rfl⟩
  · exact .inl rfl
  · exact .inl (read_releaseFrame_other _ held s (hb held hp))
  · exact .inl rfl
  · exact .inl (read_resetBlock_other hb)
  · by_cases hba : b = a
    · exact .inr ⟨d, by rw [hba]⟩
    · obtain ⟨v, hv⟩ := foreignWrite_treg a d s
      exact .inl (by rw [hv, read_write_other _ v hba])

/-- Settles O58: by the invariant the frame in flight is a command's, so it addresses the windows only. -/
theorem onlyTheWindowsAreWritten : Obligations.OnlyTheWindowsAreWritten := by
  intro s t b hs h hb
  have hout : ∀ held, s.phase = .xmit held → b ∉ addressed held.frame := fun held hp hmem =>
    hb (inWindows_of_mem_addressed (hs.held held hp).1 hmem)
  rcases step_cases h with ⟨c, cs, -, -, hacc⟩ | ⟨-, ⟨-, rfl⟩ | ⟨e, es, he, hdel⟩⟩
  · exact .inl (by rw [accept_treg hacc])
  · exact .inl rfl
  · rcases read_deliver_other (s := { s with events := es }) hdel hout with hread | ⟨d, rfl⟩
    · exact .inl hread
    · exact .inr ⟨d, es, he⟩

/-! ### The answer to a frame -/

/-- In XMIT the transport's answer completes the frame in flight, whatever waits at the port (10_state.md R23). -/
theorem step_of_answer {s : State} {held : Held} {x : Status} {es : List Event} (hp : s.phase = .xmit held)
    (he : s.events = .answer x :: es) : step s = .next (complete x held { s with events := es }) := by
  have hbusy : s.phase = .idle → s.port = [] := fun hidle => nomatch hp.symm.trans hidle
  rw [step_of_event hbusy he, deliver_answer_of_xmit (s := { s with events := es }) hp]

/-- A register that none of the data bytes arrives at keeps its byte (20_memory.md R45 to R47). -/
theorem read_landFrame_outside (landed : Bool) (foreign : List Byte) (n : Nat) {a b : Byte} {ds : List Byte} (m : Memory)
    (hb : ∀ k < ds.length, b ≠ a + BitVec.ofNat 8 k) :
    (landFrame landed foreign n (a :: ds) m).read b = m.read b := by
  refine read_landFrame_other landed foreign n (a :: ds) m fun hmem => ?_
  obtain ⟨k, hk, e⟩ := mem_addressRun.1 hmem
  exact hb k hk e

/-- Each register of a frame that did not land holds a free byte of its own (20_memory.md R46, R47). -/
theorem read_landFrame_lost (foreign : List Byte) (n : Nat) (a : Byte) {ds : List Byte} (m : Memory)
    (hlen : ds.length ≤ 256) {k : Nat} (hk : k < ds.length) :
    (landFrame false foreign n (a :: ds) m).read (a + BitVec.ofNat 8 k) = Config.freeByte (n + k) := by
  simp [read_landFrame false foreign n a ds m hlen k hk]

theorem frameLanded_success (m : Memory) : frameLanded .success m = (m.read 0x00).getLsbD 5 := by
  simp [frameLanded, autoInc_eq]

theorem frameLanded_failure (m : Memory) : frameLanded .failure m = false := rfl

/-- Settles O21: the frame lands, so an addressed register takes its data byte unless it is contended. -/
theorem successWritesTheFrame : Obligations.SuccessWritesTheFrame := by
  intro s held a ds es hp hf hlen he hauto
  have hland : frameLanded .success s.treg = true := (frameLanded_success s.treg).trans hauto
  refine ⟨_, step_of_answer hp he, rfl, rfl, fun k hk => ?_, fun b hb => ?_⟩
  · simp only [complete_treg, hland, hf, read_landFrame _ _ _ a ds _ hlen k hk, true_and, ite_not]
  · simp only [complete_treg, hf, read_landFrame_outside _ _ _ _ hb]

/-- Settles O22: without AUTOINC the frame does not land. -/
theorem successWithoutAutoIncrement : Obligations.SuccessWithoutAutoIncrement := by
  intro s held a ds es hp hf hlen he hauto
  have hland : frameLanded .success s.treg = false := (frameLanded_success s.treg).trans hauto
  refine ⟨_, step_of_answer hp he, rfl, rfl, fun k hk => ?_, fun b hb => ?_⟩
  · simp only [complete_treg, hland, hf, read_landFrame_lost _ _ a _ hlen hk]
  · simp only [complete_treg, hf, read_landFrame_outside _ _ _ _ hb]

/-- Settles O23: a frame answered with FAILURE does not land. -/
theorem failureLeavesTheFrameUnknown : Obligations.FailureLeavesTheFrameUnknown := by
  intro s held a ds es hp hf hlen he
  refine ⟨_, step_of_answer hp he, rfl, rfl, rfl, fun k hk => ?_, fun b hb => ?_⟩
  · simp only [complete_treg, frameLanded_failure, hf, read_landFrame_lost _ _ a _ hlen hk]
  · simp only [complete_treg, hf, read_landFrame_outside _ _ _ _ hb]

/-! ### What a carried frame leaves in a window -/

/-- Channel `ch`'s window holds the count `v`: ON bytes 00 00, then `v`, low byte first (20_memory.md R43). -/
def HoldsCount (m : Memory) (ch : Nat) (v : Count) : Prop :=
  m.read (channelBase ch) = 0x00 ∧ m.read (channelBase ch + 1) = 0x00 ∧
  m.read (channelBase ch + 2) = v.extractLsb' 0 8 ∧ m.read (channelBase ch + 3) = v.extractLsb' 8 8

/-- The window that a landed frame reaches with data byte `n` holds the count whose four bytes stand in the frame from there on. -/
theorem holdsCount_of_landed {a : Byte} {ds : List Byte} {n ch : Nat} {v : Count} (draw : Nat) (m : Memory)
    (hlen : ds.length ≤ 256) (hbase : a + BitVec.ofNat 8 n = channelBase ch)
    (hbytes : ∀ j < 4, ds[n + j]? = (window v)[j]?) : HoldsCount (landFrame true [] draw (a :: ds) m) ch v := by
  have hread : ∀ j (hj : j < 4), (landFrame true [] draw (a :: ds) m).read (channelBase ch + BitVec.ofNat 8 j) =
      (window v)[j]'hj := by
    intro j hj
    obtain ⟨hk, hd⟩ := List.getElem?_eq_some_iff.1 ((hbytes j hj).trans (List.getElem?_eq_getElem hj))
    rw [← hbase, BitVec.add_assoc, ← BitVec.ofNat_add, read_landFrame true [] draw a ds m hlen _ hk]
    simpa using hd
  simp only [window_eq] at hread
  exact ⟨by simpa using hread 0 (by decide), hread 1 (by decide), hread 2 (by decide), hread 3 (by decide)⟩

/-- SETCH's frame, carried, programs its channel's window (30_encoding.md R70). -/
theorem holdsCount_frameOne (draw : Nat) (m : Memory) (ch : Byte) (v : Count) :
    HoldsCount (landFrame true [] draw (frameOne ch v) m) ch.toNat v :=
  holdsCount_of_landed (n := 0) draw m (by decide : 4 ≤ 256) (by simp) (by simp)

/-- SETALL's frame, carried, programs every window (30_encoding.md R71). -/
theorem holdsCount_frameAll (draw : Nat) (m : Memory) {vs : List Count} (hlen : vs.length = 16) {i : Nat} {v : Count}
    (hv : vs[i]? = some v) : HoldsCount (landFrame true [] draw (frameAll vs) m) i v := by
  refine holdsCount_of_landed (n := 4 * i) draw m ?_ rfl fun j hj => ?_
  · rw [flatMap_window_length, hlen]
    decide
  · simpa [frameAll, hv] using frameAll_getElem? vs i j hj

/-- SETALL's frame as R85 makes it from sixteen angles, carried. -/
theorem holdsCount_setall (draw : Nat) (m : Memory) (ang : Vector Word 16) (i : Fin 16) :
    HoldsCount (landFrame true [] draw (frameAll (ang.toList.map offCount)) m) i.val (offCount ang[i]) :=
  holdsCount_frameAll draw m (by simp) (by simp)

/-! ### A command whose frame is handed over, and its frame's end -/

/-- A command whose checks pass hands over its frame (10_state.md R23). -/
theorem exec_of_frameOf {i : Instr} {f : Frame} (hf : frameOf i = some f) (s : State) :
    exec i s = .next (transmit i f s) := by
  obtain ⟨t, ht⟩ := exec_next i s
  rw [ht]
  rcases exec_cases ht with ⟨v, hnone, -⟩ | ⟨code, hnone, -⟩ | ⟨f', hf', rfl⟩
  · exact nomatch hf.symm.trans hnone
  · exact nomatch hf.symm.trans hnone
  · rw [Option.some.inj (hf.symm.trans hf')]

section
variable {s : State} {c : Command} {cs : List Command} {es : List Event} {i : Instr} {f : Frame}

theorem step_handsOver (hp : s.phase = .idle) (hq : s.port = c :: cs) (hd : decode c = .instr i)
    (hf : frameOf i = some f) : step s = .next (transmit i f { s with port := cs }) := by
  rw [step_of_command hp hq, accept_of_instr hd, exec_of_frameOf hf]

/-- An accepted command whose frame the transport carries: its two steps, with what they leave (20_memory.md R45). -/
theorem steps_carried (hp : s.phase = .idle) (hq : s.port = c :: cs) (he : s.events = .answer .success :: es)
    (hd : decode c = .instr i) (hf : frameOf i = some f) (hauto : (s.treg.read 0x00).getLsbD 5 = true) :
    ∃ t u, step s = .next t ∧ step t = .next u ∧
      u.phase = .idle ∧ u.rsp = some ⟨0x00, 0⟩ ∧ u.responses = s.responses ++ [⟨0x00, 0⟩] ∧
      u.port = cs ∧ u.events = es ∧ u.config = s.config ∧ u.bus.length = s.bus.length + 1 ∧
      u.treg = landFrame true [] s.draws f s.treg := by
  have hland : frameLanded .success s.treg = true := (frameLanded_success s.treg).trans hauto
  refine ⟨_, _, step_handsOver hp hq hd hf, step_of_answer rfl he, rfl, rfl, rfl, rfl, rfl, rfl, by simp, ?_⟩
  simp [hland]

/-- An accepted command whose frame is answered, with either answer, or aborted by a reset leaves every register outside its frame
as it was (20_memory.md R45 to R47, 70_reset_and_hazards.md R141). -/
theorem steps_attempted {e : Event} (hp : s.phase = .idle) (hq : s.port = c :: cs) (he : s.events = e :: es)
    (hend : e = .reset ∨ ∃ x, e = .answer x) (hd : decode c = .instr i) (hf : frameOf i = some f) :
    ∃ t u, step s = .next t ∧ step t = .next u ∧ u.phase = .idle ∧ u.port = cs ∧ u.events = es ∧
      ∀ b, b ∉ addressed f → u.treg.read b = s.treg.read b := by
  have hbusy : (transmit i f { s with port := cs }).phase = .idle →
      (transmit i f { s with port := cs }).port = [] := fun hidle => nomatch hidle
  rcases hend with rfl | ⟨x, rfl⟩
  · exact ⟨_, _, step_handsOver hp hq hd hf, step_of_event hbusy he, rfl, rfl, rfl,
      fun b hb => read_landFrame_other _ _ _ f _ hb⟩
  · exact ⟨_, _, step_handsOver hp hq hd hf, step_of_answer rfl he, rfl, rfl, rfl,
      fun b hb => read_landFrame_other _ _ _ f _ hb⟩

/-- A command tried, its frame answered or aborted, and then carried (70_reset_and_hazards.md R147): its frame lands, and every
register outside it is as before both, MODE1 with AUTOINC among them. -/
theorem steps_reissued {e : Event} (hp : s.phase = .idle) (hq : s.port = c :: c :: cs)
    (he : s.events = e :: .answer .success :: es) (hend : e = .reset ∨ ∃ x, e = .answer x)
    (hauto : (s.treg.read 0x00).getLsbD 5 = true) (hd : decode c = .instr i) (hf : frameOf i = some f) :
    ∃ t1 t2 t3 t4, step s = .next t1 ∧ step t1 = .next t2 ∧ step t2 = .next t3 ∧ step t3 = .next t4 ∧
      t4.phase = .idle ∧ t4.rsp = some ⟨0x00, 0⟩ ∧ t4.port = cs ∧ t4.events = es ∧
      (∃ draw m, t4.treg = landFrame true [] draw f m) ∧
      ∀ b, b ∉ addressed f → t4.treg.read b = s.treg.read b := by
  obtain ⟨t1, t2, h1, h2, hp2, hq2, he2, hkeep⟩ := steps_attempted hp hq he hend hd hf
  have hmode1 : (0x00 : Byte) ∉ addressed f := fun hmem => by
    simpa [inWindows] using inWindows_of_mem_addressed hf hmem
  have hauto2 : (t2.treg.read 0x00).getLsbD 5 = true := by rw [hkeep _ hmode1, hauto]
  obtain ⟨t3, t4, h3, h4, hp4, hr4, -, hq4, he4, -, -, hm4⟩ := steps_carried hp2 hq2 he2 hd hf hauto2
  refine ⟨t1, t2, t3, t4, h1, h2, h3, h4, hp4, hr4, hq4, he4, ⟨_, _, hm4⟩, fun b hb => ?_⟩
  rw [hm4, read_landFrame_other _ _ _ f _ hb, hkeep b hb]

end

/-- A register that differs from the four of a channel's window is not addressed by SETCH on that channel. -/
theorem not_mem_addressed_frameOne {ch b : Byte} {v : Count}
    (hb : ∀ k < 4, b ≠ channelBase ch.toNat + BitVec.ofNat 8 k) : b ∉ addressed (frameOne ch v) := fun hmem => by
  obtain ⟨k, hk, e⟩ := mem_addressed_frameOne.1 hmem
  exact hb k hk e

/-- Settles O32: the frame lands in the channel's window. -/
theorem setchProgramsItsWindow : Obligations.SetchProgramsItsWindow := by
  intro s c cs es ch a hp hq he hd hch ha hauto
  obtain ⟨t, u, ht, hu, hphase, hrsp, hresp, hport, hev, hcfg, hbus, hm⟩ :=
    steps_carried hp hq he hd (frameOf_setch hch ha) hauto
  obtain ⟨h0, h1, h2, h3⟩ := holdsCount_frameOne s.draws s.treg ch (offCount a)
  rw [← hm] at h0 h1 h2 h3
  refine ⟨t, u, ht, hu, hphase, hrsp, hresp, hport, hev, hcfg, hbus, h0, h1, h2, h3, fun b hb => ?_⟩
  rw [hm, read_landFrame_other _ _ _ _ _ (not_mem_addressed_frameOne hb)]

/-- Settles O33: the frame lands in every window. -/
theorem setallProgramsEveryWindow : Obligations.SetallProgramsEveryWindow := by
  intro s c cs es ang hp hq he hd hang hauto
  obtain ⟨t, u, ht, hu, hphase, hrsp, hresp, hport, hev, hcfg, hbus, hm⟩ :=
    steps_carried hp hq he hd (frameOf_setall hang) hauto
  refine ⟨t, u, ht, hu, hphase, hrsp, hresp, hport, hev, hcfg, hbus, fun i => ?_, fun b hb => ?_⟩
  · rw [hm]
    exact holdsCount_setall s.draws s.treg ang i
  · rw [hm, read_landFrame_other _ _ _ _ _ fun hmem => hb ((mem_addressed_frameAll (by simp)).1 hmem)]

/-- Settles O34: the second frame lands whatever the end of the first, which left MODE1 and every register outside the frame. -/
theorem reissueRestoresTheWindow : Obligations.ReissueRestoresTheWindow := by
  intro s c cs e es hp hq he hend hauto
  refine ⟨fun ch a hd hch ha => ?setch, fun ang hd hang => ?setall⟩
  case setch =>
    obtain ⟨t1, t2, t3, t4, ht1, ht2, ht3, ht4, hphase, hrsp, hport, hev, ⟨draw, m, hm⟩, hkeep⟩ :=
      steps_reissued hp hq he hend hauto hd (frameOf_setch hch ha)
    obtain ⟨h0, h1, h2, h3⟩ := holdsCount_frameOne draw m ch (offCount a)
    rw [← hm] at h0 h1 h2 h3
    exact ⟨t1, t2, t3, t4, ht1, ht2, ht3, ht4, hphase, hrsp, hport, hev, h0, h1, h2, h3,
      fun b hb => hkeep b (not_mem_addressed_frameOne hb)⟩
  case setall =>
    obtain ⟨t1, t2, t3, t4, ht1, ht2, ht3, ht4, hphase, hrsp, hport, hev, ⟨draw, m, hm⟩, hkeep⟩ :=
      steps_reissued hp hq he hend hauto hd (frameOf_setall hang)
    refine ⟨t1, t2, t3, t4, ht1, ht2, ht3, ht4, hphase, hrsp, hport, hev, fun i => ?_, fun b hb => ?_⟩
    · rw [hm]
      exact holdsCount_setall draw m ang i
    · exact hkeep b fun hmem => hb ((mem_addressed_frameAll (by simp)).1 hmem)

end Sys2Proof.Machine

namespace Sys2Proof

/-! ### Words as their fields -/

/-- MIR as a number (30_encoding.md R63). -/
theorem toNat_mirField (w : Word) : (mirField w).toNat = w.toNat / 2 ^ 16 % 2 := by
  rw [mirField, getLsbD_eq]
  rcases Nat.mod_two_eq_zero_or_one (w.toNat / 2 ^ 16) with h | h <;> simp only [h] <;> rfl

/-- CLS as a number (30_encoding.md R63). -/
theorem clsNat_clsField (w : Word) : clsNat (clsField w) = w.toNat / 2 ^ 17 % 2 := by
  rw [clsField, getLsbD_eq]
  rcases Nat.mod_two_eq_zero_or_one (w.toNat / 2 ^ 17) with h | h <;> simp only [h] <;> rfl

theorem toNat_slice_eq_zero {w : Word} {start len : Nat} (h : w.extractLsb' start len = 0#len) :
    w.toNat / 2 ^ start % 2 ^ len = 0 := by
  rw [← toNat_slice, h, BitVec.toNat_ofNat, Nat.zero_mod]

/-- A word whose reserved bits are zero is made of its own fields (30_encoding.md R60). -/
theorem eq_commandWord_of_rsv {w : Word} (h : w.extractLsb' 18 14 = 0#14) :
    w = commandWord (opField w) (chField w) (mirField w) (clsField w) := by
  have hzero := toNat_slice_eq_zero h
  apply BitVec.eq_of_toNat_eq
  rw [toNat_commandWord, toNat_mirField, clsNat_clsField, opField, chField, toNat_slice, toNat_slice]
  have := w.isLt
  omega

/-- A word with nothing above CH is made of its OP and CH. -/
theorem eq_commandWord_of_above16 {w : Word} (h : w.extractLsb' 16 16 = 0#16) :
    w = commandWord (opField w) (chField w) false .thigh := by
  have hzero := toNat_slice_eq_zero h
  apply BitVec.eq_of_toNat_eq
  rw [toNat_commandWord, opField, chField, toNat_slice, toNat_slice, Bool.toNat_false, clsNat]
  have := w.isLt
  omega

/-- A word with nothing above OP is made of its OP. -/
theorem eq_commandWord_of_above8 {w : Word} (h : w.extractLsb' 8 24 = 0#24) :
    w = commandWord (opField w) 0#8 false .thigh := by
  have hzero := toNat_slice_eq_zero h
  apply BitVec.eq_of_toNat_eq
  rw [toNat_commandWord, opField, toNat_slice, Bool.toNat_false, clsNat, BitVec.toNat_ofNat]
  have := w.isLt
  omega

/-! ### Decoding and encoding -/

/-- `i` with the operand fields it uses read from `c` (30_encoding.md R61); its command-word fields stay. -/
def Instr.withOperands (c : Command) : Instr → Instr
  | .setch ch _ => .setch ch c.a
  | .setall _ => .setall c.ang
  | .mirror _ => .mirror c.a
  | .offset _ _ => .offset c.a c.d
  | .clampt _ => .clampt c.a
  | .clamps _ => .clamps c.a
  | .cond mir cls _ _ => .cond mir cls c.a c.d
  | .a2off _ => .a2off c.a

/-- An encoded record holds every operand of its instruction (30_encoding.md R61). -/
@[simp] theorem withOperands_encode (i : Instr) : i.withOperands (encode i) = i := by cases i <;> rfl

/-- A record with the command word of `i` decodes to `i` on the record's own operands (30_encoding.md R65). -/
theorem decode_of_word_eq {c : Command} {i : Instr} (h : c.word = (encode i).word) :
    decode c = .instr (i.withOperands c) := by
  unfold decode
  rw [h]
  cases i <;> simp [encode, whenZero, Instr.withOperands]

/-- `whenZero` answers an instruction only if the bits are zero, and then its own. -/
theorem whenZero_eq_instr {zero : Bool} {i j : Instr} (h : whenZero zero i = .instr j) : zero = true ∧ i = j := by
  cases zero
  · cases h
  · cases h
    exact ⟨rfl, rfl⟩

/-- In a row that wants every bit above OP zero, the word is the OP alone (30_encoding.md R66). -/
theorem word_eq_of_whenZero {w : Word} {op : Byte} {i j : Instr} (hop : opField w = op)
    (hi : (encode i).word = commandWord op 0#8 false .thigh) (h : whenZero (w.extractLsb' 8 24 == 0) i = .instr j) :
    w = (encode j).word := by
  obtain ⟨hzero, rfl⟩ := whenZero_eq_instr h
  rw [hi, ← hop]
  exact eq_commandWord_of_above8 (eq_of_beq hzero)

/-- A record that decodes has the command word of what it decodes to: no bit is ignored (30_encoding.md R66). -/
theorem word_eq_of_decode {c : Command} {i : Instr} (h : decode c = .instr i) : c.word = (encode i).word := by
  unfold decode at h
  extract_lets w above8 at h
  split_ifs at h with hsetch hsetall hmirror hoffset hclampt hclamps hcond ha2off
  · obtain ⟨hzero, rfl⟩ := whenZero_eq_instr h
    rw [encode, ← hsetch]
    exact eq_commandWord_of_above16 (eq_of_beq hzero)
  · exact word_eq_of_whenZero hsetall rfl h
  · exact word_eq_of_whenZero hmirror rfl h
  · exact word_eq_of_whenZero hoffset rfl h
  · exact word_eq_of_whenZero hclampt rfl h
  · exact word_eq_of_whenZero hclamps rfl h
  · obtain ⟨hzero, rfl⟩ := whenZero_eq_instr h
    obtain ⟨hch, hrsv⟩ := Bool.and_eq_true_iff.1 hzero
    rw [encode, ← hcond, ← show chField w = 0 from eq_of_beq hch]
    exact eq_commandWord_of_rsv (eq_of_beq hrsv)
  · exact word_eq_of_whenZero ha2off rfl h

/-- Settles O2: an encoded record has its instruction's word and operands. -/
theorem decodeOfEncodeIsIdentity : Obligations.DecodeOfEncodeIsIdentity := by
  intro i
  rw [decode_of_word_eq rfl, withOperands_encode]

/-- Settles O4: the word of a record that decodes is the encoded one. -/
theorem encodeOfDecodeKeepsTheWord : Obligations.EncodeOfDecodeKeepsTheWord :=
  fun _ _ h => (word_eq_of_decode h).symm

/-! ### The opcode map -/

/-- Where a row's mask has ones only, a selected word has the row's pattern (30_encoding.md R65). -/
theorem slice_eq_of_selects {r : OpcodeRow} {w : Word} (h : r.selects w = true) {start len : Nat}
    (hmask : r.mask.extractLsb' start len = BitVec.allOnes len) :
    w.extractLsb' start len = r.pattern.extractLsb' start len := by
  rw [← eq_of_beq h, BitVec.extractLsb'_and, hmask, BitVec.and_allOnes]

/-- A row whose mask is all ones selects its pattern only. -/
theorem eq_pattern_of_selects {r : OpcodeRow} {w : Word} (h : r.selects w = true) (hmask : r.mask = BitVec.allOnes 32) :
    w = r.pattern := by
  rw [← eq_of_beq h, hmask, BitVec.and_allOnes]

/-- Every row fixes OP. -/
theorem opField_of_selects {r : OpcodeRow} {w : Word} (hr : r ∈ opcodeMap) (h : r.selects w = true) :
    opField w = opField r.pattern := by
  have hmask : ∀ r ∈ opcodeMap, r.mask.extractLsb' 0 8 = BitVec.allOnes 8 := by decide
  exact slice_eq_of_selects h (hmask r hr)

/-- The instruction's own row is the one that its encoded word selects (30_encoding.md R64, R65). -/
theorem rowOf_encode (i : Instr) : rowOf (encode i).word = some (mnemonicOf i) := by
  cases i with
  | setch ch a => exact Laws.EncodeRow.setch ch a
  | setall ang => exact Laws.EncodeRow.setall ang
  | mirror a => exact Laws.EncodeRow.mirror a
  | offset a d => exact Laws.EncodeRow.offset a d
  | clampt a => exact Laws.EncodeRow.clampt a
  | clamps a => exact Laws.EncodeRow.clamps a
  | cond mir cls a d => exact Laws.EncodeRow.cond mir cls a d
  | a2off a => exact Laws.EncodeRow.a2off a

/-- What a row selects is an encoded word (30_encoding.md R64): the pattern alone, or for SETCH any CH and for COND any MIR and
CLS. -/
theorem exists_encode_of_selects {r : OpcodeRow} {w : Word} (hr : r ∈ opcodeMap) (h : r.selects w = true) :
    ∃ i, w = (encode i).word := by
  have hop := opField_of_selects hr h
  simp only [opcodeMap, List.mem_cons, List.not_mem_nil, or_false] at hr
  rcases hr with rfl | rfl | rfl | rfl | rfl | rfl | rfl | rfl
  · have hw := eq_commandWord_of_above16 (w := w) (slice_eq_of_selects h rfl)
    rw [hop] at hw
    exact ⟨.setch (chField w) 0, hw⟩
  · exact ⟨.setall default, eq_pattern_of_selects h rfl⟩
  · exact ⟨.mirror 0, eq_pattern_of_selects h rfl⟩
  · exact ⟨.offset 0 0, eq_pattern_of_selects h rfl⟩
  · exact ⟨.clampt 0, eq_pattern_of_selects h rfl⟩
  · exact ⟨.clamps 0, eq_pattern_of_selects h rfl⟩
  · have hch : chField w = 0#8 := slice_eq_of_selects h rfl
    have hw := eq_commandWord_of_rsv (w := w) (slice_eq_of_selects h rfl)
    rw [hop, hch] at hw
    exact ⟨.cond (mirField w) (clsField w) 0 0, hw⟩
  · exact ⟨.a2off 0, eq_pattern_of_selects h rfl⟩

theorem wordWellFormed_encode (i : Instr) : wordWellFormed (encode i).word = true := by
  obtain ⟨r, hfind, -⟩ := Option.map_eq_some_iff.1 (rowOf_encode i)
  have hsel := List.find?_some hfind
  exact List.any_eq_true.2 ⟨r, List.mem_of_find?_eq_some hfind, hsel⟩

/-- A word is well formed exactly when it is some instruction's (30_encoding.md R65). -/
theorem wordWellFormed_iff_encode (w : Word) : wordWellFormed w = true ↔ ∃ i, w = (encode i).word := by
  constructor
  · intro h
    obtain ⟨r, hr, hsel⟩ := List.any_eq_true.1 h
    exact exists_encode_of_selects hr hsel
  · rintro ⟨i, rfl⟩
    exact wordWellFormed_encode i

/-- Settles O3: the rows select exactly the encoded words, and no two rows have the same OP. -/
theorem decodeFollowsOpcodeMap : Obligations.DecodeFollowsOpcodeMap := by
  refine ⟨fun c => ?_, fun c i h => ?_, fun w r hr r' hr' hsel hsel' => ?_⟩
  · rw [wordWellFormed_iff_encode]
    exact ⟨fun ⟨i, h⟩ => ⟨i, word_eq_of_decode h⟩, fun ⟨i, h⟩ => ⟨_, decode_of_word_eq h⟩⟩
  · rw [word_eq_of_decode h, rowOf_encode]
  · have hinj : ∀ r ∈ opcodeMap, ∀ r' ∈ opcodeMap, opField r.pattern = opField r'.pattern → r = r' := by decide
    exact hinj r hr r' hr' ((opField_of_selects hr hsel).symm.trans (opField_of_selects hr' hsel'))

/-- Settles O1: each legal word is the encoded word of its command; each illegal one is decoded as it stands. -/
theorem decodeOfSpecWords : Obligations.DecodeOfSpecWords :=
  ⟨fun _ => decode_of_word_eq (i := .setch 15 0) rfl, fun _ => decode_of_word_eq (i := .setch 16 0) rfl,
    fun _ => decode_of_word_eq (i := .setall default) rfl, fun _ => decode_of_word_eq (i := .mirror 0) rfl,
    fun _ _ => decode_of_word_eq (i := .offset 0 0) rfl, fun _ => decode_of_word_eq (i := .clampt 0) rfl,
    fun _ => decode_of_word_eq (i := .clamps 0) rfl, fun _ _ => decode_of_word_eq (i := .cond false .shank 0 0) rfl,
    fun _ _ => decode_of_word_eq (i := .cond true .thigh 0 0) rfl, fun _ => decode_of_word_eq (i := .a2off 0) rfl,
    rfl, rfl, rfl, rfl⟩

end Sys2Proof

namespace Sys2Proof.Machine

/-! ### Assembler lines -/

/-- `mapM` in `Option` keeps the length of the list. -/
theorem length_of_mapM {α β : Type} {f : α → Option β} {xs : List α} {ys : List β} (h : xs.mapM f = some ys) :
    ys.length = xs.length := by
  induction xs generalizing ys with
  | nil => cases h; rfl
  | cons x xs ih =>
    obtain ⟨y, -, zs, hzs, rfl⟩ : ∃ y, f x = some y ∧ ∃ zs, xs.mapM f = some zs ∧ y :: zs = ys := by
      simpa [List.mapM_cons, Option.bind_eq_some_iff] using h
    simp [ih hzs]

/-- SETALL takes exactly 16 operands (30_encoding.md R68). -/
theorem sixteenAngles_of_length_ne {ops : List Token} (h : ops.length ≠ 16) : sixteenAngles ops = none := by
  unfold sixteenAngles
  split
  · rename_i ws hws
    exact dif_neg fun hlen => h ((length_of_mapM hws).symm.trans hlen)
  · rfl

/-- Settles O6: the fixed lines are evaluated; channel 256, and any number of angles but 16, is rejected whatever else the line
holds. -/
theorem assemblerLines : Obligations.AssemblerLines := by
  refine ⟨by decide +kernel, by decide +kernel, by decide +kernel, by decide +kernel, fun a ops => ?_,
    fun ops h => ?_, by decide +kernel, fun a => rfl⟩
  · cases ops <;> rfl
  · simp only [assemble, assembleInstr, sixteenAngles_of_length_ne h, Option.map_none]

/-! ### The frames as the spec lists their bytes -/

/-- A channel's base address as the sum of 20_memory.md R41. -/
theorem channelBase_eq (ch : Nat) : channelBase ch = BitVec.ofNat 8 (0x06 + 4 * ch) := by
  rw [channelBase, BitVec.ofNat_add]
  rfl

/-- The 5-byte frame of SETCH, byte by byte (30_encoding.md R70). -/
theorem frameOne_eq (ch : Byte) (v : Count) :
    frameOne ch v = [BitVec.ofNat 8 (0x06 + 4 * ch.toNat), 0x00, 0x00, v.extractLsb' 0 8, v.extractLsb' 8 8] := by
  rw [frameOne, channelBase_eq, window_eq]

/-- Settles O26: SETCH's frame is handed over, and its bytes are those of R70. -/
theorem setchHandsOverItsFrame : Obligations.SetchHandsOverItsFrame := by
  intro ch a s hch ha
  rw [exec_of_frameOf (frameOf_setch hch ha), frameOne_eq]
  rfl

/-- Settles O29: SETALL's frame is handed over, and its window `i` is that of the `i`-th count. -/
theorem setallHandsOverItsFrame : Obligations.SetallHandsOverItsFrame := by
  intro ang s hang
  refine ⟨frameAll (ang.toList.map offCount), by simp [frameAll_length], rfl, fun i => ?_,
    exec_of_frameOf (frameOf_setall hang) s⟩
  have hbyte : ∀ j < 4, (frameAll (ang.toList.map offCount))[4 * i.val + j + 1]? = (window (offCount ang[i]))[j]? := by
    intro j hj
    simp [frameAll_getElem? _ _ _ hj]
  rw [window_eq] at hbyte
  exact ⟨hbyte 0 (by decide), hbyte 1 (by decide), hbyte 2 (by decide), hbyte 3 (by decide)⟩

/-! ### COND -/

/-- COND on finite operands is the clamped sum's answer (41_angle_pipeline.md R106). -/
theorem exec_cond_of_finite {mir : Bool} {cls : JointClass} {a d : Word} (s : State) (ha : isFinite32 a = true)
    (hd : isFinite32 d = true) (ho : isFinite32 (offsetAngle (mirrorIf mir a) d) = true) :
    exec (.cond mir cls a d) s =
      .next (succeed (clampClass s.config.limits cls (offsetAngle (mirrorIf mir a) d)) s) := by
  simp only [exec, execCond, ha, hd, ho, Bool.and_self, if_true]

/-- A non-finite operand or an overflowing sum is INVALID_ANGLE (41_angle_pipeline.md R106). -/
theorem exec_cond_of_not_finite {mir : Bool} {cls : JointClass} {a d : Word} (s : State)
    (h : isFinite32 a = false ∨ isFinite32 d = false ∨ isFinite32 (offsetAngle (mirrorIf mir a) d) = false) :
    exec (.cond mir cls a d) s = .next (raise .invalidAngle s) := by
  simp only [exec, execCond]
  rcases h with h | h | h <;> simp [h]

/-- Settles O44: COND either answers the clamped sum or rejects its operands. -/
theorem condAnswers : Obligations.CondAnswers := by
  intro mir cls a d s m o r
  refine ⟨fun ha hd ho => ?_, exec_cond_of_not_finite s⟩
  rw [exec_cond_of_finite s ha hd ho]
  cases cls <;> rfl

end Sys2Proof.Machine

namespace Sys2Proof.Machine

/-! ### What the channel programmer's frames carry -/

/-- The window of the all-channel frame that belongs to the `i`-th count, byte by byte (30_encoding.md R71, R72). -/
theorem frameAll_window {vs : List Count} {i : Nat} {v : Count} (hv : vs[i]? = some v) :
    (frameAll vs)[4 * i + 1]? = some 0x00 ∧ (frameAll vs)[4 * i + 2]? = some 0x00 ∧
    (frameAll vs)[4 * i + 3]? = some (v.extractLsb' 0 8) ∧ (frameAll vs)[4 * i + 4]? = some (v.extractLsb' 8 8) := by
  have hbyte : ∀ j < 4, (frameAll vs)[4 * i + j + 1]? = (window v)[j]? := fun j hj => by
    rw [frameAll_getElem? vs i j hj, hv, Option.bind_some]
  rw [window_eq] at hbyte
  exact ⟨hbyte 0 (by decide), hbyte 1 (by decide), hbyte 2 (by decide), hbyte 3 (by decide)⟩

/-- SETALL's check holds of every channel's angle (40_channel_programmer.md R85). -/
theorem isFinite32_of_all {ang : Vector Word 16} (h : ang.toList.all isFinite32 = true) (i : Fin 16) :
    isFinite32 ang[i] = true :=
  List.all_eq_true.1 h _ (by simp)

/-- Settles O56: a frame is handed over only after its checks, and is made of its base and its channels' windows. -/
theorem frameContentLaw : Obligations.FrameContentLaw := by
  refine ⟨fun ch a f hf => ?setch, fun ang f hf => ?setall, fun i s t h => ?handed⟩
  case setch =>
    obtain ⟨⟨hch, ha⟩, hframe⟩ := Option.ite_none_right_eq_some.1 hf
    obtain rfl := Option.some.inj hframe
    exact ⟨hch, ha, by rw [frameOne, window_eq]⟩
  case setall =>
    obtain ⟨hall, hframe⟩ := Option.ite_none_right_eq_some.1 hf
    obtain rfl := Option.some.inj hframe
    exact ⟨rfl, fun i => ⟨isFinite32_of_all hall i, frameAll_window (by simp)⟩⟩
  case handed =>
    rcases exec_cases h with ⟨v, -, rfl⟩ | ⟨code, -, rfl⟩ | ⟨f, hf, rfl⟩
    · exact .inl rfl
    · exact .inl rfl
    · exact .inr ⟨f, hf, rfl⟩

/-! ### What the channel programmer answers -/

/-- Settles O28: the channel check passes and the angle check does not. -/
theorem setchRejectsTheAngle : Obligations.SetchRejectsTheAngle := by
  intro ch a s hch ha
  simp only [exec, execSetch, if_neg (Nat.not_le.2 hch : ¬ channelCount ≤ ch.toNat), ha, Bool.false_eq_true, if_false]
  rfl

/-- Settles O30: one non-finite angle fails SETALL's check. -/
theorem setallRejectsAnyBadAngle : Obligations.SetallRejectsAnyBadAngle := by
  intro ang s i hi
  have hcheck : ¬ ang.toList.all isFinite32 = true := fun hall =>
    nomatch hi.symm.trans (isFinite32_of_all hall i)
  simp only [exec, execSetall, if_neg hcheck]
  rfl

/-- Settles O31: A2OFF's one check decides between the count and the error. -/
theorem a2offAnswersTheCount : Obligations.A2offAnswersTheCount := by
  intro a s
  refine ⟨fun ha => ?_, fun ha => ?_⟩
  · simp only [exec, execA2off, if_pos ha]
    rfl
  · simp only [exec, execA2off, ha, Bool.false_eq_true, if_false]
    rfl

/-! ### The angle-to-count map -/

/-- Settles O35: the exponent field, the significand's range and its decimal value are evaluated. -/
theorem mapScaleIsTheBinary64Literal : Obligations.MapScaleIsTheBinary64Literal := by
  unfold Obligations.MapScaleIsTheBinary64Literal
  decide +kernel

/-- Settles O37: the ten counts are evaluated. -/
theorem countsOfTheSpecVectors : Obligations.CountsOfTheSpecVectors := by
  unfold Obligations.CountsOfTheSpecVectors
  decide +kernel

/-- The map before it wraps is monotone in the angle's value: the product, both roundings and the truncation are
(40_channel_programmer.md R80, R81). -/
theorem mapTicks_mono {a b : Word} (h : value32 a ≤ value32 b) : mapTicks a ≤ mapTicks b := by
  have hproduct : mapProduct a ≤ mapProduct b :=
    fl64_mono (Int.mul_le_mul_of_nonneg_right h (Int.natCast_nonneg mapScaleSig))
  have hscaled : mapScaled a ≤ mapScaled b := fl64_mono (Int.add_le_add_right hproduct _)
  exact Int.tdiv_le_tdiv (by decide) hscaled

/-- Settles O38: monotone on all words, so on finite ones. -/
theorem ticksAreMonotone : Obligations.TicksAreMonotone :=
  fun _ _ _ _ h => mapTicks_mono h

/-! ### Neighbouring binary32 values -/

theorem value32_of_sign_false {w : Word} (h : sign32 w = false) : value32 w = magnitude32 w := by
  simp only [value32, h, Bool.false_eq_true, if_false]

theorem value32_of_sign_true {w : Word} (h : sign32 w = true) : value32 w = -(magnitude32 w : Int) := by
  simp only [value32, h, if_true]

/-- The magnitude is read from the low 31 bits alone (30_encoding.md R61). -/
theorem magnitude32_congr {x y : Word} (h : x.toNat % 2 ^ 31 = y.toNat % 2 ^ 31) : magnitude32 x = magnitude32 y := by
  have hx := fraction32_lt x
  have hy := fraction32_lt y
  rw [low31_eq, low31_eq] at h
  have hexp : exponent32 x = exponent32 y := by omega
  have hfrac : fraction32 x = fraction32 y := by omega
  rw [magnitude32, magnitude32, hexp, hfrac]

/-- Finite magnitudes are ordered as their encodings. -/
theorem low31_lt_of_magnitude32_lt {x y : Word} (hx : isFinite32 x = true) (hy : isFinite32 y = true)
    (h : magnitude32 x < magnitude32 y) : x.toNat % 2 ^ 31 < y.toNat % 2 ^ 31 := by
  have hle := encode32_mono (Nat.le_of_lt h)
  rw [encode32_magnitude hx, encode32_magnitude hy] at hle
  exact Nat.lt_of_le_of_ne hle fun heq => Nat.ne_of_lt h (magnitude32_congr heq)

section
variable {x y z : Word} (hx : isFinite32 x = true) (hy : isFinite32 y = true) (hz : isFinite32 z = true)
  (hnext : z.toNat % 2 ^ 31 = y.toNat % 2 ^ 31 + 1)
include hx hy hz hnext

/-- No finite magnitude lies between those of two consecutive encodings. -/
theorem magnitude32_next_le (h : magnitude32 y < magnitude32 x) : magnitude32 z ≤ magnitude32 x := by
  have hyx := low31_lt_of_magnitude32_lt hy hx h
  by_contra hlt
  have hxz := low31_lt_of_magnitude32_lt hx hz (Nat.lt_of_not_le hlt)
  omega

/-- A finite angle above a positive one is at least its neighbour upwards. -/
theorem value32_next_le (hys : sign32 y = false) (hzs : sign32 z = false) (h : value32 y < value32 x) :
    value32 z ≤ value32 x := by
  have hmag := magnitude32_next_le hx hy hz hnext
  rw [value32_of_sign_false hys] at h
  rw [value32_of_sign_false hzs]
  cases hxs : sign32 x with
  | false =>
    rw [value32_of_sign_false hxs] at h ⊢
    omega
  | true =>
    rw [value32_of_sign_true hxs] at h
    omega

/-- A finite angle below a negative one is at most its neighbour downwards. -/
theorem value32_le_next (hys : sign32 y = true) (hzs : sign32 z = true) (h : value32 x < value32 y) :
    value32 x ≤ value32 z := by
  have hmag := magnitude32_next_le hx hy hz hnext
  rw [value32_of_sign_true hys] at h
  rw [value32_of_sign_true hzs]
  cases hxs : sign32 x with
  | false =>
    rw [value32_of_sign_false hxs] at h
    omega
  | true =>
    rw [value32_of_sign_true hxs] at h ⊢
    omega

end

/-! ### The angle domain -/

/-- The ticks at the lower end of the domain and at the next angle below it (40_channel_programmer.md R83). -/
theorem mapTicks_lower_end : -102 ≤ mapTicks 0xC235E5E7 ∧ mapTicks 0xC235E5E8 < -102 := by decide +kernel

/-- The ticks at the upper end of the domain and at the next angle above it (40_channel_programmer.md R83). -/
theorem mapTicks_upper_end : mapTicks 0x44DB53A0 ≤ 3993 ∧ 3993 < mapTicks 0x44DB53A1 := by decide +kernel

/-- The count before it wraps is not negative exactly from the domain's lower end on (40_channel_programmer.md R82, R83). -/
theorem lower_le_mapTicks_iff {a : Word} (ha : isFinite32 a = true) :
    -102 ≤ mapTicks a ↔ value32 0xC235E5E7 ≤ value32 a := by
  obtain ⟨hin, hout⟩ := mapTicks_lower_end
  constructor
  · intro h
    by_contra hlt
    have hbelow : value32 a ≤ value32 0xC235E5E8 :=
      value32_le_next ha (by decide) (by decide) (by decide) (by decide) (by decide) (Int.lt_of_not_ge hlt)
    have := mapTicks_mono hbelow
    omega
  · intro h
    exact Int.le_trans hin (mapTicks_mono h)

/-- The count before it wraps is at most 4095 exactly up to the domain's upper end (40_channel_programmer.md R82, R83). -/
theorem mapTicks_le_upper_iff {a : Word} (ha : isFinite32 a = true) :
    mapTicks a ≤ 3993 ↔ value32 a ≤ value32 0x44DB53A0 := by
  obtain ⟨hin, hout⟩ := mapTicks_upper_end
  constructor
  · intro h
    by_contra hlt
    have habove : value32 0x44DB53A1 ≤ value32 a :=
      value32_next_le ha (by decide) (by decide) (by decide) (by decide) (by decide) (Int.lt_of_not_ge hlt)
    have := mapTicks_mono habove
    omega
  · intro h
    exact Int.le_trans (mapTicks_mono h) hin

/-- Settles O39: at each end the ticks are monotone, and the neighbouring angle outside the domain is out of range. -/
theorem countIsMeaningfulExactlyInTheDomain : Obligations.CountIsMeaningfulExactlyInTheDomain := by
  intro a ha
  rw [← lower_le_mapTicks_iff ha, ← mapTicks_le_upper_iff ha]
  omega

end Sys2Proof.Machine

namespace Sys2Proof.Machine

/-! ### When a binary32 sum overflows -/

/-- Encodings stay below infinity exactly below the midpoint between the largest finite magnitude and 2^128
(41_angle_pipeline.md R103): the encoding is monotone, and it is evaluated on both sides of the midpoint. -/
theorem encode32_lt_infinity_iff (n : Nat) : encode32 n < 0x7F800000 ↔ n < (2 ^ 128 - 2 ^ 103) * 2 ^ 149 := by
  have hat : encode32 ((2 ^ 128 - 2 ^ 103) * 2 ^ 149) = 0x7F800000 := by decide +kernel
  have hbelow : encode32 ((2 ^ 128 - 2 ^ 103) * 2 ^ 149 - 1) < 0x7F800000 := by decide +kernel
  constructor
  · intro h
    by_contra hge
    have := encode32_mono (Nat.le_of_not_lt hge)
    omega
  · intro h
    exact Nat.lt_of_le_of_lt (encode32_mono (Nat.le_sub_one_of_lt h)) hbelow

/-- A sum is finite exactly below that midpoint, whatever its operands. -/
theorem isFinite32_add32_iff (x y : Word) :
    isFinite32 (add32 x y) = true ↔ (value32 x + value32 y).natAbs < (2 ^ 128 - 2 ^ 103) * 2 ^ 149 := by
  rw [isFinite32_add32, decide_eq_true_eq, encode32_lt_infinity_iff]

/-- Settles O48: a sum is finite exactly below the threshold. -/
theorem overflowThreshold : Obligations.OverflowThreshold := by
  intro x y _ _
  rw [← Bool.not_eq_true, isFinite32_add32_iff, Nat.not_lt]

/-- No finite magnitude exceeds that of the largest finite encoding. -/
theorem magnitude32_le_largest {w : Word} (h : isFinite32 w = true) : magnitude32 w ≤ magnitude32 0x7F7FFFFF := by
  by_contra hlt
  have habove : 0x7F7FFFFF < w.toNat % 2 ^ 31 :=
    low31_lt_of_magnitude32_lt (by decide) h (Nat.lt_of_not_le hlt)
  have hexp := (isFinite32_iff w).1 h
  have hfrac := fraction32_lt w
  rw [low31_eq] at habove
  omega

/-! ### The zero of a sum -/

/-- The only negative word of value 0 is -0. -/
theorem eq_negative_zero {w : Word} (h : isFinite32 w = true) (hs : sign32 w = true) (h0 : value32 w = 0) :
    w = 0x80000000 := by
  have hmag : magnitude32 w = 0 := by rw [← natAbs_value32, h0, Int.natAbs_zero]
  have hlow : w.toNat % 2 ^ 31 = 0 := by
    rw [← encode32_magnitude h, hmag]
    decide +kernel
  rw [← pack32_self w, hs, hlow]
  rfl

/-- Two negative values whose sum is 0 are both 0. -/
theorem value32_eq_zero_of_add {x y : Word} (hx : sign32 x = true) (hy : sign32 y = true)
    (h : value32 x + value32 y = 0) : value32 x = 0 ∧ value32 y = 0 := by
  rw [value32_of_sign_true hx, value32_of_sign_true hy] at *
  omega

/-- Settles O47: if both operands have the sign bit, both are -0; if not, the sum has no sign bit, and one operand is not -0. -/
theorem zeroSumsTakeTheIeeeSign : Obligations.ZeroSumsTakeTheIeeeSign := by
  intro x y hx hy h
  by_cases hsign : sign32 x = true ∧ sign32 y = true
  · obtain ⟨hsx, hsy⟩ := hsign
    obtain ⟨hx0, hy0⟩ := value32_eq_zero_of_add hsx hsy h
    rw [eq_negative_zero hx hsx hx0, eq_negative_zero hy hsy hy0]
    decide +kernel
  · have hsum : add32 x y = pack32 (sign32 x && sign32 y) 0 := if_pos h
    have hzeros : ¬ (x = 0x80000000 ∧ y = 0x80000000) := by
      rintro ⟨rfl, rfl⟩
      exact hsign (by decide)
    rw [← Bool.and_eq_true, Bool.not_eq_true] at hsign
    rw [hsum, hsign, if_neg hzeros]
    rfl

/-! ### MIRROR -/

/-- MIRROR's difference (41_angle_pipeline.md R102): rounded once from the exact one, and +0 at 180. -/
theorem mirrorAngle_eq (a : Word) :
    mirrorAngle a =
      if value32 mirrorPivot - value32 a = 0 then 0x00000000 else round32 (value32 mirrorPivot - value32 a) := by
  have hpivot : sign32 mirrorPivot = false := by decide
  simp only [mirrorAngle, sub32, add32, value32_negate32, hpivot, Bool.false_and, ← Int.sub_eq_add_neg]
  rfl

/-- Settles O49: 180 is too small to take the largest magnitude to the overflow threshold. -/
theorem mirrorStaysFinite : Obligations.MirrorStaysFinite := by
  intro a ha
  have hmax := magnitude32_le_largest ha
  have hpivot : magnitude32 mirrorPivot + magnitude32 0x7F7FFFFF < (2 ^ 128 - 2 ^ 103) * 2 ^ 149 := by decide +kernel
  rw [mirrorAngle, sub32, isFinite32_add32_iff, value32_negate32]
  calc (value32 mirrorPivot + -value32 a).natAbs
    _ ≤ (value32 mirrorPivot).natAbs + (-value32 a).natAbs := Int.natAbs_add_le _ _
    _ = magnitude32 mirrorPivot + magnitude32 a := by rw [Int.natAbs_neg, natAbs_value32, natAbs_value32]
    _ ≤ magnitude32 mirrorPivot + magnitude32 0x7F7FFFFF := Nat.add_le_add_left hmax _
    _ < (2 ^ 128 - 2 ^ 103) * 2 ^ 149 := hpivot

/-- Settles O52: the second difference is the angle's value, which rounds to the angle. -/
theorem mirrorTwiceWhereExact : Obligations.MirrorTwiceWhereExact := by
  intro a ha hexact
  have hback : value32 mirrorPivot - value32 (mirrorAngle a) = value32 a := by
    rw [hexact]
    exact Int.sub_sub_self _ _
  rw [mirrorAngle_eq (mirrorAngle a), hback]
  split
  · rfl
  · rename_i h0
    exact round32_value ha h0

/-- Settles O54: both vectors are evaluated. -/
theorem mirrorTwiceFailsInGeneral : Obligations.MirrorTwiceFailsInGeneral := by
  unfold Obligations.MirrorTwiceFailsInGeneral
  decide +kernel

/-! ### Where MIRROR is exact -/

/-- A value of at most 24 significant digits is not rounded (00_scope.md R10, `fl32`). -/
theorem roundValue_of_dvd {v : Int} {k : Nat} (hdvd : 2 ^ k ∣ v.natAbs) (hlt : v.natAbs < 2 ^ (24 + k)) :
    roundValue v = v := by
  obtain ⟨m, hm⟩ := hdvd
  rw [Nat.mul_comm] at hm
  have hm24 : m < 2 ^ 24 := by
    rw [hm, Nat.pow_add] at hlt
    exact Nat.lt_of_mul_lt_mul_right hlt
  have hround : roundSig 24 v.natAbs = v.natAbs := by rw [hm, roundSig_mul hm24]
  unfold roundValue
  rw [hround]
  split <;> omega

/-- MIRROR is exact where the difference has at most 24 significant digits (41_angle_pipeline.md R107). -/
theorem value32_mirrorAngle_of_dvd {a : Word} (ha : isFinite32 a = true) {k : Nat} (hk : k ≤ 151)
    (hdvd : 2 ^ k ∣ magnitude32 a) (hlt : (value32 mirrorPivot - value32 a).natAbs < 2 ^ (24 + k)) :
    value32 (mirrorAngle a) = value32 mirrorPivot - value32 a := by
  have hpivot : (2 : Int) ^ k ∣ value32 mirrorPivot :=
    Int.dvd_trans (pow_dvd_pow 2 hk) (by decide +kernel : (2 : Int) ^ 151 ∣ value32 mirrorPivot)
  have hangle : (2 : Int) ^ k ∣ value32 a := by
    rw [← Int.natAbs_dvd_natAbs, natAbs_value32, Int.natAbs_pow]
    exact hdvd
  have hdiff : 2 ^ k ∣ (value32 mirrorPivot - value32 a).natAbs := by
    have := Int.natAbs_dvd_natAbs.2 (Int.dvd_sub hpivot hangle)
    rwa [Int.natAbs_pow] at this
  have hvalue := value32_add32 (mirrorStaysFinite a ha : isFinite32 (add32 mirrorPivot (negate32 a)) = true)
  rw [value32_negate32, ← Int.sub_eq_add_neg, roundValue_of_dvd hdiff hlt] at hvalue
  exact hvalue

/-- A magnitude with its top digit at `2^(23 + k)` or above is a multiple of `2^k` (30_encoding.md R61). -/
theorem two_pow_dvd_magnitude32 {w : Word} {k : Nat} (h : 2 ^ (23 + k) ≤ magnitude32 w) : 2 ^ k ∣ magnitude32 w := by
  have hfrac := fraction32_lt w
  unfold magnitude32 at *
  split at h
  · have hpow : 2 ^ 23 ≤ 2 ^ (23 + k) := Nat.pow_le_pow_right (by decide) (Nat.le_add_right 23 k)
    omega
  · rename_i h0
    rw [if_neg h0]
    have htop : 2 ^ (23 + k) < 2 ^ (24 + (exponent32 w - 1)) := by
      rw [Nat.pow_add 2 24]
      exact Nat.lt_of_le_of_lt h (Nat.mul_lt_mul_of_pos_right (by omega) (Nat.two_pow_pos _))
    have hexp := (Nat.pow_lt_pow_iff_right (by decide)).1 htop
    exact Nat.dvd_mul_left_of_dvd (pow_dvd_pow 2 (by omega)) _

/-- Settles O53: angles in [90, 128) are multiples of 2^-17 less than 128 away from 180, those in [128, 360] multiples of
2^-16 less than 256 away, as those between -76 and 436 are. -/
theorem mirrorIsExactOnItsRanges : Obligations.MirrorIsExactOnItsRanges := by
  have hpivot : value32 mirrorPivot = 180 * 2 ^ 149 := by decide +kernel
  intro a ha hrange
  have hmag := natAbs_value32 a
  change _ = value32 mirrorPivot - _
  rcases hrange with ⟨hlo, hhi⟩ | ⟨hmul, hlo, hhi⟩
  · by_cases h128 : value32 a < 128 * 2 ^ 149
    · exact value32_mirrorAngle_of_dvd ha (k := 132) (by decide) (two_pow_dvd_magnitude32 (by omega)) (by omega)
    · exact value32_mirrorAngle_of_dvd ha (k := 133) (by decide) (two_pow_dvd_magnitude32 (by omega)) (by omega)
  · have hdvd : 2 ^ 133 ∣ magnitude32 a := by omega
    exact value32_mirrorAngle_of_dvd ha (k := 133) (by decide) hdvd (by omega)

/-! ### The clamp -/

/-- The lower limit of a joint class (10_state.md R26, 30_encoding.md R63). -/
def classMin (l : Limits) : JointClass → Word
  | .thigh => l.minT
  | .shank => l.minS

/-- The upper limit of a joint class (10_state.md R26, 30_encoding.md R63). -/
def classMax (l : Limits) : JointClass → Word
  | .thigh => l.maxT
  | .shank => l.maxS

theorem clampClass_eq (l : Limits) (cls : JointClass) (x : Word) :
    clampClass l cls x = clampAngle x (classMin l cls) (classMax l cls) := by
  cases cls <;> rfl

/-- Each class of well-formed limits is finite and in order (10_state.md R27). -/
theorem wellFormed_class {l : Limits} (h : l.wellFormed = true) (cls : JointClass) :
    isFinite32 (classMin l cls) = true ∧ isFinite32 (classMax l cls) = true ∧
      value32 (classMin l cls) ≤ value32 (classMax l cls) := by
  cases cls
  · exact (wellFormed_limits h).1
  · exact (wellFormed_limits h).2

/-- The clamp of a finite angle is finite, because the limits are (41_angle_pipeline.md R101). -/
theorem isFinite32_clampClass {l : Limits} (h : l.wellFormed = true) (cls : JointClass) {x : Word}
    (hx : isFinite32 x = true) : isFinite32 (clampClass l cls x) = true := by
  obtain ⟨hmin, hmax, -⟩ := wellFormed_class h cls
  rw [clampClass_eq]
  rcases clampAngle_cases x (classMin l cls) (classMax l cls) with he | he | he <;> rw [he] <;> assumption

section
variable {x lo hi : Word} (hx : isFinite32 x = true) (hl : isFinite32 lo = true) (hh : isFinite32 hi = true)
include hx hl hh

/-- On values the clamp is the saturation of 41_angle_pipeline.md R104. -/
theorem value32_clampAngle (h : value32 lo ≤ value32 hi) :
    value32 (clampAngle x lo hi) = max (value32 lo) (min (value32 x) (value32 hi)) := by
  rw [clampAngle_of_finite hx hl hh]
  split
  · omega
  · split <;> omega

/-- An angle in range is answered as it is (41_angle_pipeline.md R104). -/
theorem clampAngle_of_mem (hlo : value32 lo ≤ value32 x) (hhi : value32 x ≤ value32 hi) : clampAngle x lo hi = x := by
  rw [clampAngle_of_finite hx hl hh, if_neg (Int.not_lt.2 hlo), if_neg (Int.not_lt.2 hhi)]

end

/-- Settles O51: on values the clamp is a saturation, and a clamped angle lies in range, so that it is answered as it is. -/
theorem clampLaws : Obligations.ClampLaws := by
  intro l cls lo hi hwf hends a ha
  obtain ⟨rfl, rfl⟩ : lo = classMin l cls ∧ hi = classMax l cls := by cases cls <;> exact hends
  obtain ⟨hmin, hmax, hle⟩ := wellFormed_class hwf cls
  have hvalue : ∀ x, isFinite32 x = true → value32 (clampClass l cls x) =
      max (value32 (classMin l cls)) (min (value32 x) (value32 (classMax l cls))) := fun x hx => by
    rw [clampClass_eq, value32_clampAngle hx hmin hmax hle]
  have hclamped := isFinite32_clampClass hwf cls ha
  have hva := hvalue a ha
  refine ⟨⟨by omega, by omega⟩, fun h => by omega, fun h => by omega, ?_, fun b hb h => ?_⟩
  · rw [clampClass_eq l cls (clampClass l cls a)]
    exact clampAngle_of_mem hclamped hmin hmax (by omega) (by omega)
  · have hvb := hvalue b hb
    omega

/-! ### What the angle pipeline answers -/

/-- The response of a pure command: OK with its value where its checks pass, INVALID_ANGLE with 0 where they do not
(41_angle_pipeline.md R101). -/
def checkedResponse (passed : Bool) (v : Word) : Response := if passed then ⟨0x00, v⟩ else ⟨0x04, 0⟩

theorem checkedResponse_eq_ok {passed : Bool} {u v : Word} (h : checkedResponse passed u = ⟨0x00, v⟩) :
    passed = true ∧ u = v := by
  cases passed with
  | false => cases h
  | true => cases h; exact ⟨rfl, rfl⟩

/-- A command with one check, whose failure is INVALID_ANGLE, presents its checked response. -/
theorem next_checked (passed : Bool) (v : Word) (s : State) :
    (if passed then .next (succeed v s) else .next (raise .invalidAngle s) : Host.Outcome State Fault Refusal) =
      .next (present (checkedResponse passed v) s) := by
  cases passed <;> rfl

theorem exec_mirror (a : Word) (s : State) :
    exec (.mirror a) s = .next (present (checkedResponse (isFinite32 a) (mirrorAngle a)) s) :=
  next_checked _ _ s

theorem exec_offset (a d : Word) (s : State) :
    exec (.offset a d) s =
      .next (present (checkedResponse
        (isFinite32 a && isFinite32 d && isFinite32 (offsetAngle a d)) (offsetAngle a d)) s) := by
  simp only [exec, execOffset, returnAngle]
  cases isFinite32 a && isFinite32 d
  · rfl
  · cases isFinite32 (offsetAngle a d) <;> rfl

/-- The clamp command of a joint class (41_angle_pipeline.md R104, R105). -/
def clampCommand : JointClass → Word → Instr
  | .thigh, x => .clampt x
  | .shank, x => .clamps x

theorem exec_clampCommand (cls : JointClass) (a : Word) (s : State) :
    exec (clampCommand cls a) s =
      .next (present (checkedResponse (isFinite32 a) (clampClass s.config.limits cls a)) s) := by
  cases cls
  · exact next_checked _ _ s
  · exact next_checked _ _ s

theorem exec_cond (mir : Bool) (cls : JointClass) (a d : Word) (s : State) :
    exec (.cond mir cls a d) s =
      .next (present (checkedResponse
        (isFinite32 a && isFinite32 d && isFinite32 (offsetAngle (mirrorIf mir a) d))
        (clampClass s.config.limits cls (offsetAngle (mirrorIf mir a) d))) s) := by
  cases h : isFinite32 a && isFinite32 d && isFinite32 (offsetAngle (mirrorIf mir a) d) with
  | true =>
    obtain ⟨⟨ha, hd⟩, ho⟩ := by simpa only [Bool.and_eq_true] using h
    exact exec_cond_of_finite s ha hd ho
  | false => exact exec_cond_of_not_finite s (by simpa only [Bool.and_eq_false_iff, or_assoc] using h)

theorem exec_a2off (a : Word) (s : State) :
    exec (.a2off a) s = .next (present (checkedResponse (isFinite32 a) ((offCount a).zeroExtend 32)) s) :=
  next_checked _ _ s

/-- Settles O41: MIRROR's one check decides between the difference and the error. -/
theorem mirrorAnswers : Obligations.MirrorAnswers := by
  intro a s
  rw [exec_mirror]
  exact ⟨fun ha => by rw [ha]; rfl, fun ha => by rw [ha]; rfl⟩

/-- Settles O42: OFFSET answers the sum exactly if all three checks pass. -/
theorem offsetAnswers : Obligations.OffsetAnswers := by
  intro a d s
  rw [exec_offset]
  refine ⟨fun ha hd ho => ?_, fun h => ?_⟩
  · rw [ha, hd, offsetAngle, ho]
    rfl
  · have hfail : (isFinite32 a && isFinite32 d && isFinite32 (offsetAngle a d)) = false := by
      simpa only [Bool.and_eq_false_iff, or_assoc, offsetAngle] using h
    rw [hfail]
    rfl

/-- Settles O43: either clamp command checks its angle, and saturates it to its own limits, which are finite. -/
theorem clampsAnswer : Obligations.ClampsAnswer := by
  intro a s saturate t h
  have hanswer (cls : JointClass) (ha : isFinite32 a = true) : exec (clampCommand cls a) s =
      .next (present ⟨0x00, saturate (classMin s.config.limits cls) (classMax s.config.limits cls)⟩ s) := by
    obtain ⟨hmin, hmax, -⟩ := wellFormed_class s.config.wellFormed cls
    rw [exec_clampCommand, ha, clampClass_eq, clampAngle_of_finite ha hmin hmax]
    rfl
  have hreject (cls : JointClass) (ha : isFinite32 a = false) :
      exec (clampCommand cls a) s = .next (present ⟨0x04, 0⟩ s) := by
    rw [exec_clampCommand, ha]
    rfl
  exact ⟨fun ha => ⟨hanswer .thigh ha, hanswer .shank ha⟩, fun ha => ⟨hreject .thigh ha, hreject .shank ha⟩⟩

/-- A command that presents its checked response answers OK only if the checks pass, and then with its value. -/
theorem checked_of_answers_ok {i : Instr} {s t : State} {passed : Bool} {u v : Word}
    (hi : exec i s = .next (present (checkedResponse passed u) s)) (h : exec i s = .next t)
    (hrsp : t.rsp = some ⟨0x00, v⟩) : passed = true ∧ u = v := by
  rw [hi] at h
  cases h
  exact checkedResponse_eq_ok (Option.some.inj hrsp)

/-- Settles O50: each command answers OK only after its own checks: the mirrored angle stays finite, the sum is checked,
and the clamp answers the angle or a limit. -/
theorem answeredAnglesAreFinite : Obligations.AnsweredAnglesAreFinite := by
  intro i s t v hi hexec hrsp
  have hclamp (cls : JointClass) (a : Word) (h : exec (clampCommand cls a) s = .next t) : isFinite32 v = true := by
    obtain ⟨ha, rfl⟩ := checked_of_answers_ok (exec_clampCommand cls a s) h hrsp
    exact isFinite32_clampClass s.config.wellFormed cls ha
  cases i with
  | setch | setall | a2off => cases hi
  | mirror a =>
    obtain ⟨ha, rfl⟩ := checked_of_answers_ok (exec_mirror a s) hexec hrsp
    exact mirrorStaysFinite a ha
  | offset a d =>
    obtain ⟨hchecks, rfl⟩ := checked_of_answers_ok (exec_offset a d s) hexec hrsp
    exact (Bool.and_eq_true_iff.1 hchecks).2
  | clampt a => exact hclamp .thigh a hexec
  | clamps a => exact hclamp .shank a hexec
  | cond mir cls a d =>
    obtain ⟨hchecks, rfl⟩ := checked_of_answers_ok (exec_cond mir cls a d s) hexec hrsp
    exact isFinite32_clampClass s.config.wellFormed cls (Bool.and_eq_true_iff.1 hchecks).2

/-! ### Pure commands -/

/-- A pure command presents one response, the same in every state of the same configuration (41_angle_pipeline.md R109). -/
theorem exec_pure {i : Instr} (h : isPure i = true) (c : Configuration) :
    ∃ r, ∀ s : State, s.config = c → exec i s = .next (present r s) := by
  cases i with
  | setch | setall => cases h
  | mirror a => exact ⟨_, fun s _ => exec_mirror a s⟩
  | offset a d => exact ⟨_, fun s _ => exec_offset a d s⟩
  | clampt a => exact ⟨_, fun s hs => hs ▸ exec_clampCommand .thigh a s⟩
  | clamps a => exact ⟨_, fun s hs => hs ▸ exec_clampCommand .shank a s⟩
  | cond mir cls a d => exact ⟨_, fun s hs => hs ▸ exec_cond mir cls a d s⟩
  | a2off a => exact ⟨_, fun s _ => exec_a2off a s⟩

theorem answerOf_of_exec {i : Instr} {s : State} {r : Response} (h : exec i s = .next (present r s)) :
    answerOf i s = some r := by
  rw [answerOf, h]
  rfl

/-- Settles O55: a pure command presents a response that the configuration fixes. -/
theorem pureCommandsOnlyAnswer : Obligations.PureCommandsOnlyAnswer := by
  refine fun i hi => ⟨fun s t hexec => ?_, fun s s' hconfig => ?_⟩
  · obtain ⟨r, hr⟩ := exec_pure hi s.config
    rw [hr s rfl] at hexec
    cases hexec
    exact ⟨r, rfl⟩
  · obtain ⟨r, hr⟩ := exec_pure hi s.config
    rw [answerOf_of_exec (hr s rfl), answerOf_of_exec (hr s' hconfig.symm)]

/-! ### COND as a sequence -/

/-- A sequence goes on with the value of a passed check, and ends with the error of a failed one
(41_angle_pipeline.md R106). -/
theorem thenOk_checkedResponse (passed : Bool) (v : Word) (next : Word → Option Response) :
    thenOk (some (checkedResponse passed v)) next = if passed then next v else some ⟨0x04, 0⟩ := by
  cases passed <;> rfl

@[simp] theorem mirrorIf_true (a : Word) : mirrorIf true a = mirrorAngle a := if_pos rfl

@[simp] theorem mirrorIf_false (a : Word) : mirrorIf false a = a := if_neg Bool.false_ne_true

/-- The answer of OFFSET and then of a class's clamp, which checks the sum that OFFSET has checked already. -/
theorem answerOf_offset_clamp (cls : JointClass) (a d : Word) (s : State) :
    thenOk (answerOf (.offset a d) s) (fun o => answerOf (clampCommand cls o) s) =
      some (checkedResponse (isFinite32 a && isFinite32 d && isFinite32 (offsetAngle a d))
        (clampClass s.config.limits cls (offsetAngle a d))) := by
  rw [answerOf_of_exec (exec_offset a d s), thenOk_checkedResponse, answerOf_of_exec (exec_clampCommand cls _ s)]
  cases isFinite32 a && isFinite32 d
  · rfl
  · cases isFinite32 (offsetAngle a d) <;> rfl

/-- COND's answer as a sequence (41_angle_pipeline.md R106): an angle that is not finite ends both; a finite one stays
finite through the mirror step, and both then make the same sum, checks and clamp. -/
theorem answerOf_cond (mir : Bool) (cls : JointClass) (a d : Word) (s : State) :
    answerOf (.cond mir cls a d) s =
      thenOk (if mir then answerOf (.mirror a) s else some ⟨0x00, a⟩) fun m =>
        thenOk (answerOf (.offset m d) s) fun o => answerOf (clampCommand cls o) s := by
  simp only [answerOf_offset_clamp, answerOf_of_exec (exec_cond mir cls a d s)]
  cases mir with
  | false =>
    rw [mirrorIf_false]
    rfl
  | true =>
    rw [mirrorIf_true, if_pos rfl, answerOf_of_exec (exec_mirror a s), thenOk_checkedResponse]
    cases ha : isFinite32 a with
    | false => rfl
    | true => rw [mirrorStaysFinite a ha, if_pos rfl]

/-- Settles O45: the clamp command is that of COND's class. -/
theorem condEqualsTheSequence : Obligations.CondEqualsTheSequence := by
  intro mir cls a d s
  rw [answerOf_cond]
  cases cls <;> rfl

end Sys2Proof.Machine

namespace Sys2Proof.Machine

/-! ### Codes raised before any frame, and the response's end -/

/-- A command whose word no row selects is accepted by raising ILLEGAL_COMMAND, whatever its operands
(60_exceptions.md R121): if it decoded, its word would be well formed. -/
theorem accept_of_illformed {c : Command} (h : wordWellFormed c.word = false) (s : State) :
    accept c s = .next (raise .illegalCommand s) := by
  obtain ⟨t, ht⟩ := accept_next c s
  rcases accept_cases ht with ⟨i, hd, -⟩ | ⟨_, -, rfl⟩
  · have hw : wordWellFormed c.word = true := (decodeFollowsOpcodeMap.1 c).1 ⟨i, hd⟩
    exact nomatch h.symm.trans hw
  · exact ht

/-- Settles O8: the idle block accepts the command, and accepting an ill-formed word raises ILLEGAL_COMMAND. -/
theorem illegalWordAnswersIllegalCommand : Obligations.IllegalWordAnswersIllegalCommand := by
  intro s c cs hp hq hw
  rw [step_of_command hp hq, accept_of_illformed hw]
  rfl

/-- Settles O15: with nothing to accept, the step delivers the host's taking of the response. -/
theorem takingTheResponseClearsIt : Obligations.TakingTheResponseClearsIt := by
  intro s es hbusy he
  rw [step_of_event hbusy he]
  rfl

/-- Settles O27: SETCH checks its channel first, so the angle plays no part. -/
theorem setchRejectsTheChannel : Obligations.SetchRejectsTheChannel := by
  intro ch a s hch
  simp only [exec, execSetch, if_pos (show channelCount ≤ ch.toNat from hch)]
  rfl

end Sys2Proof.Machine

namespace Sys2Proof.Machine

/-! ### Events outside a command -/

/-- Settles O12: with nothing to accept, the step delivers the offer. -/
theorem offerJoinsThePort : Obligations.OfferJoinsThePort := by
  intro s c es hno he
  rw [step_of_event hno he]
  rfl

/-- With a frame in flight there is nothing to accept, whatever waits at the port (70_reset_and_hazards.md R146). -/
theorem nothing_to_accept_of_xmit {s : State} {held : Held} (hp : s.phase = .xmit held) :
    s.phase = .idle → s.port = [] := fun hidle => nomatch hp.symm.trans hidle

/-- Settles O13: in XMIT nothing is accepted, so without an event the step waits. -/
theorem waitsForTheTransport : Obligations.WaitsForTheTransport := fun _ _ hp he =>
  step_of_no_event (nothing_to_accept_of_xmit hp) he

/-! ### Reset -/

theorem resetBlock_of_idle {s : State} (hp : s.phase = .idle) : resetBlock s = { s with rsp := none } := by
  simp only [resetBlock, hp]

/-- A reset with a frame in flight ends the frame without landing it (70_reset_and_hazards.md R141). -/
theorem resetBlock_treg_of_xmit {s : State} {held : Held} (hp : s.phase = .xmit held) :
    (resetBlock s).treg = landFrame false held.foreign s.draws held.frame s.treg := by
  simp only [resetBlock, hp, releaseFrame_treg]

/-- Settles O17: the step delivers the reset, which in IDLE withdraws the response only. -/
theorem resetInIdle : Obligations.ResetInIdle := by
  intro s es hp hq he
  rw [step_of_event (fun _ => hq) he]
  exact congrArg Host.Outcome.next (resetBlock_of_idle (s := { s with events := es }) hp)

/-- Settles O18: the step delivers the reset, and the frame in flight is lost. -/
theorem resetInXmit : Obligations.ResetInXmit := by
  intro s held a ds es hp hf hlen he
  have hm : (resetBlock { s with events := es }).treg = landFrame false held.foreign s.draws (a :: ds) s.treg := by
    rw [resetBlock_treg_of_xmit (s := { s with events := es }) hp, hf]
  refine ⟨_, step_of_event (nothing_to_accept_of_xmit hp) he, resetBlock_phase _, resetBlock_rsp _,
    resetBlock_responses _, resetBlock_bus _, resetBlock_config _, resetBlock_port _, fun k hk => ?_, fun b hb => ?_⟩
  · rw [hm, read_landFrame_lost _ _ a _ hlen hk]
  · rw [hm, read_landFrame_outside _ _ _ _ hb]

/-! ### Another agent's writes -/

/-- A contended register of the frame takes its free byte, landed or not (70_reset_and_hazards.md R145). -/
theorem read_landFrame_contended (landed : Bool) {foreign : List Byte} (n : Nat) {a : Byte} {ds : List Byte} (m : Memory)
    (hlen : ds.length ≤ 256) {k : Nat} (hk : k < ds.length) (hmem : a + BitVec.ofNat 8 k ∈ foreign) :
    (landFrame landed foreign n (a :: ds) m).read (a + BitVec.ofNat 8 k) = Config.freeByte (n + k) := by
  rw [read_landFrame landed foreign n a ds m hlen k hk, if_neg fun h => h.2 hmem]

/-- Settles O24: the answer completes the frame, which leaves a contended register free whether or not it lands. -/
theorem contendedRegistersAreUnconstrained : Obligations.ContendedRegistersAreUnconstrained := by
  intro s held a ds x es k hp hf hlen hk hmem he
  refine ⟨_, step_of_answer hp he, ?_⟩
  rw [complete_treg, hf, read_landFrame_contended _ _ _ hlen hk hmem]

theorem read_foreignWrite_other (a d : Byte) (s : State) {b : Byte} (hb : b ≠ a) :
    (foreignWrite a d s).treg.read b = s.treg.read b := by
  obtain ⟨v, hv⟩ := foreignWrite_treg a d s
  rw [hv, read_write_other _ v hb]

/-- In IDLE another agent's write is an ordinary write (70_reset_and_hazards.md R143). -/
theorem foreignWrite_of_idle {s : State} {a d : Byte} (hp : s.phase = .idle) :
    (foreignWrite a d s).phase = .idle ∧ (foreignWrite a d s).treg.read a = d := by
  refine ⟨foreignWrite_phase_of_idle hp a d, ?_⟩
  simp only [foreignWrite, hp, read_write_self]

/-- In XMIT another agent's write is recorded with the frame, and the register written takes a free byte if the frame addresses
it (70_reset_and_hazards.md R145, log 8). -/
theorem foreignWrite_of_xmit {s : State} {held : Held} {a d : Byte} (hp : s.phase = .xmit held) :
    (foreignWrite a d s).phase = .xmit { held with foreign := a :: held.foreign } ∧
    (foreignWrite a d s).treg.read a = if a ∈ addressed held.frame then Config.freeByte s.draws else d := by
  refine ⟨foreignWrite_phase_of_xmit hp a d, ?_⟩
  simp only [foreignWrite, hp, List.contains_iff_mem]
  split
  · exact read_write_self _ _ _
  · exact read_write_self _ _ _

/-- Settles O25: with nothing to accept, the step delivers the other agent's write. -/
theorem foreignWriteReachesOneRegister : Obligations.ForeignWriteReachesOneRegister := by
  intro s a d es hno he
  exact ⟨_, step_of_event hno he, foreignWrite_of_idle (s := { s with events := es }),
    fun _ => foreignWrite_of_xmit (s := { s with events := es }), fun b hb => read_foreignWrite_other a d _ hb,
    foreignWrite_rsp _ _ _, foreignWrite_responses _ _ _, foreignWrite_bus _ _ _, foreignWrite_port _ _ _,
    foreignWrite_config _ _ _⟩

/-! ### Clamped angles in the domain -/

/-- A clamp between limits in the domain answers an angle in the domain: a limit, or the angle that lies between them. -/
theorem inDomain_clampAngle {x lo hi : Word} (hx : isFinite32 x = true) (hlo : inDomain lo) (hhi : inDomain hi) :
    inDomain (clampAngle x lo hi) := by
  rw [clampAngle_of_finite hx hlo.1 hhi.1]
  split
  · exact hlo
  · split
    · exact hhi
    · exact ⟨hx, Int.le_trans hlo.2.1 (by omega), Int.le_trans (by omega) hhi.2.2⟩

theorem inDomain_clampClass {l : Limits} (h : limitsInDomain l) (cls : JointClass) {x : Word}
    (hx : isFinite32 x = true) : inDomain (clampClass l cls x) := by
  obtain ⟨hminT, hmaxT, hminS, hmaxS⟩ := h
  cases cls
  · exact inDomain_clampAngle hx hminT hmaxT
  · exact inDomain_clampAngle hx hminS hmaxS

/-- In the domain the count does not wrap, and is meaningful (40_channel_programmer.md R82, R83). -/
theorem toNat_offCount_le {a : Word} (h : inDomain a) : (offCount a).toNat ≤ 4095 := by
  obtain ⟨hfinite, hdomain⟩ := h
  obtain ⟨hlow, hhigh⟩ := (countIsMeaningfulExactlyInTheDomain a hfinite).2 hdomain
  rw [offCount, mapZero, BitVec.toNat_ofInt]
  omega

/-- A count is its two bytes, low byte first (20_memory.md R43). -/
theorem toNat_lowByte_add_highByte (v : Count) : (lowByte v).toNat + 256 * (highByte v).toNat = v.toNat := by
  have hv := v.isLt
  simp only [lowByte, highByte, BitVec.extractLsb'_toNat, Nat.shiftRight_eq_div_pow]
  omega

/-- Either clamp command answers a finite angle with an angle in the domain, if the limits lie there
(70_reset_and_hazards.md R148). -/
theorem exec_clampCommand_inDomain {s : State} {a : Word} (hl : limitsInDomain s.config.limits)
    (ha : isFinite32 a = true) (cls : JointClass) :
    ∃ v, inDomain v ∧ exec (clampCommand cls a) s = .next (present ⟨0x00, v⟩ s) := by
  refine ⟨clampClass s.config.limits cls a, inDomain_clampClass hl cls ha, ?_⟩
  rw [exec_clampCommand, ha]
  rfl

/-- Settles O40: the clamp's answer lies in the domain, so SETCH accepts it, and its count is meaningful. -/
theorem clampedAnglesSendMeaningfulCounts : Obligations.ClampedAnglesSendMeaningfulCounts := by
  intro s a ch i hl ha hch hi
  obtain ⟨cls, rfl⟩ : ∃ cls, i = clampCommand cls a := hi.elim (fun h => ⟨.thigh, h⟩) (fun h => ⟨.shank, h⟩)
  obtain ⟨v, hv, hexec⟩ := exec_clampCommand_inDomain hl ha cls
  refine ⟨present ⟨0x00, v⟩ s, _, v, lowByte (offCount v), highByte (offCount v), hexec, rfl,
    exec_of_frameOf (frameOf_setch hch hv.1) _, ?_, ?_⟩
  · rw [transmit_bus, frameOne, window_eq]
    rfl
  · rw [toNat_lowByte_add_highByte]
    exact toNat_offCount_le hv

end Sys2Proof.Machine
